-- ==== Sys2Proof/Word.lean ====
section
/-! DEFINITION. The two value types of the block: bytes (00_scope.md R11) and 32-bit words (R6, R8), and the fixed arrays built from them. -/

namespace Sys2Proof

/-- A byte: an unsigned value 0..255 (00_scope.md R11). -/
abbrev Byte := BitVec 8

/-- A word: 32 bits, unsigned, arithmetic mod 2^32 (00_scope.md R6, R9). -/
abbrev Word := BitVec 32

/-- Four words: an AccumulatorState or a digest (00_scope.md R6, 10_state.md R30). -/
abbrev Quad := Vector Word 4

/-- Sixteen words: one 512-bit block (00_scope.md R6, 10_state.md R32). -/
abbrev Block := Vector Word 16

end Sys2Proof
end

