-- ==== Sys2Proof/Syntax.lean ====
section
/-! DEFINITION. The instructions: one constructor for each row of spec/opcode_table.json, the ten CMD32 rows (30_encoding.md R82, R83) and the four STEP6 rows (R86). -/

namespace Sys2Proof

inductive Instr where
  /-- NOP, OP 0 (44_commands.md R180). -/
  | nop
  /-- INIT, OP 1 (44_commands.md R181). -/
  | init
  /-- COMPRESS, OP 2 (44_commands.md R182). -/
  | compress
  /-- DIGEST, OP 3 (44_commands.md R183). -/
  | digest
  /-- HMAC, OP 4 (44_commands.md R184). -/
  | hmac
  /-- KEYPREP, OP 5 (44_commands.md R185). -/
  | keyprep
  /-- IPAD, OP 6 (44_commands.md R186). -/
  | ipad
  /-- OPAD, OP 7 (44_commands.md R187). -/
  | opad
  /-- A reserved opcode 8 + `low` with RSV = 0 (44_commands.md R188, 30_encoding.md R83). -/
  | illegalOp (low : BitVec 3)
  /-- A word with RSV not 0, whatever its OP (44_commands.md R188, 30_encoding.md R83). -/
  | illegalRsv (rsv : BitVec 28) (op : BitVec 4)
  /-- FF, round step i = j (41_compression_core.md R122). -/
  | ff (j : BitVec 4)
  /-- GG, round step i = 16 + j (41_compression_core.md R123). -/
  | gg (j : BitVec 4)
  /-- HH, round step i = 32 + j (41_compression_core.md R124). -/
  | hh (j : BitVec 4)
  /-- II, round step i = 48 + j (41_compression_core.md R125). -/
  | ii (j : BitVec 4)
  deriving DecidableEq, Repr

end Sys2Proof
end

