-- ==== Sys2Proof/WellFormed.lean ====
section
/-! DEFINITION. Which terms of Instr stand for an encoding: the one side condition is that an `illegalRsv` word has RSV not 0 (30_encoding.md R83; with RSV = 0 the word is another row's). -/

namespace Sys2Proof

/-- The check on an instruction's fields; widths are carried by the field types. -/
def WellFormed : Instr → Bool
  | .illegalRsv rsv _ => rsv != 0
  | .nop | .init | .compress | .digest | .hmac | .keyprep | .ipad | .opad => true
  | .illegalOp _ => true
  | .ff _ | .gg _ | .hh _ | .ii _ => true

end Sys2Proof
end

