-- ==== Sys2Proof/Decode.lean ====
section
/-! DEFINITION. The decoder of the two encoded forms (30_encoding.md R80 to R88), total on words, on step indices and on bytes, then the encoder and the opcode table's rows. -/

namespace Sys2Proof

/-- The two encoded forms and nothing else (30_encoding.md R80). -/
inductive Encoded where
  /-- A word written to CMD. -/
  | cmd32 (w : Word)
  /-- The engine's internal step index. -/
  | step6 (i : BitVec 6)
  deriving DecidableEq, Repr

/-- Where the bits of an encoding are: this, not the bits, tells the form (30_encoding.md R80). -/
inductive Form where
  | cmd32
  | step6
  deriving DecidableEq, Repr

/-- Why a byte string is no encoding. -/
inductive DecodeError where
  /-- A CMD write carries exactly one 32-bit word (30_encoding.md R89), a step index one byte here. -/
  | wrongLength
  /-- A step index is 6 bits: no value above 63 exists (30_encoding.md R87). -/
  | badStepIndex
  deriving DecidableEq, Repr

/-- OP, bits [3:0] of a command word (30_encoding.md R81). -/
def opField (w : Word) : BitVec 4 := w.extractLsb' 0 4

/-- RSV, bits [31:4] of a command word (30_encoding.md R81). -/
def rsvField (w : Word) : BitVec 28 := w.extractLsb' 4 28

/-- RND, bits [5:4] of a step index (30_encoding.md R85). -/
def rndField (i : BitVec 6) : BitVec 2 := i.extractLsb' 4 2

/-- J, bits [3:0] of a step index (30_encoding.md R85). -/
def jField (i : BitVec 6) : BitVec 4 := i.extractLsb' 0 4

/-- The opcode map for RSV = 0 (30_encoding.md R82). -/
def decodeOp (op : BitVec 4) : Instr :=
  match op.toNat with
  | 0 => .nop
  | 1 => .init
  | 2 => .compress
  | 3 => .digest
  | 4 => .hmac
  | 5 => .keyprep
  | 6 => .ipad
  | 7 => .opad
  | _ => .illegalOp (op.extractLsb' 0 3)

/-- The command a CMD word stands for: every word has exactly one (30_encoding.md R82, R83). -/
def decodeCmd (w : Word) : Instr :=
  if rsvField w = 0 then decodeOp (opField w) else .illegalRsv (rsvField w) (opField w)

/-- The step operation of a step index: all 64 are used (30_encoding.md R86, R87). -/
def decodeStep (i : BitVec 6) : Instr :=
  match (rndField i).toNat with
  | 0 => .ff (jField i)
  | 1 => .gg (jField i)
  | 2 => .hh (jField i)
  | _ => .ii (jField i)

/-- The instruction of an encoding (30_encoding.md R80). -/
def decode : Encoded → Instr
  | .cmd32 w => decodeCmd w
  | .step6 i => decodeStep i

/-- A word from its four bytes, the least significant first.
DESIGN CHOICE (log 16): a CMD write has no byte order (20_memory.md R63); bytes are laid out as the data byte order R62. -/
def wordOfBytes (b0 b1 b2 b3 : Byte) : Word := b3 ++ b2 ++ b1 ++ b0

/-- The decoder on bytes: the instruction, or the name of what is wrong. -/
def decodeBytes : Form → List Byte → Except DecodeError Instr
  | .cmd32, [b0, b1, b2, b3] => .ok (decodeCmd (wordOfBytes b0 b1 b2 b3))
  | .cmd32, _ => .error .wrongLength
  | .step6, [b] => if b.extractLsb' 6 2 = 0 then .ok (decodeStep (b.extractLsb' 0 6)) else .error .badStepIndex
  | .step6, _ => .error .wrongLength

/-- Byte `k` of a number, counted from the least significant. -/
def byteOfNat (w k : Nat) : Byte := BitVec.ofNat 8 (w / 2 ^ (8 * k))

/-- The form of a table row by its width: STEP6 rows have 6 bits, one whole byte (30_encoding.md R80). -/
def formOfBits (nbits : Nat) : Form := if nbits ≤ 8 then .step6 else .cmd32

/-- The bytes that hold a table row's word `w`. -/
def layoutBytes (nbits w : Nat) : List Byte :=
  match formOfBits nbits with
  | .step6 => [byteOfNat w 0]
  | .cmd32 => [byteOfNat w 0, byteOfNat w 1, byteOfNat w 2, byteOfNat w 3]

/-- What the decoder reads from an instruction whose bits are `w`, numbered as spec/opcode_table.json numbers them. -/
def decodeTableWord (nbits w : Nat) : Option Instr :=
  if w < 2 ^ (8 * (layoutBytes nbits w).length) then
    match decodeBytes (formOfBits nbits) (layoutBytes nbits w) with
    | .ok i => some i
    | .error _ => none
  else none

/-- A command word from its two fields (30_encoding.md R81). -/
def cmdWord (rsv : BitVec 28) (op : BitVec 4) : Word := rsv ++ op

/-- A step index from its two fields (30_encoding.md R85). -/
def stepIndex (rnd : BitVec 2) (j : BitVec 4) : BitVec 6 := rnd ++ j

/-- The encoder, from the opcode map R82, the step map R86 and the layouts R81 and R85. -/
def encode : Instr → Encoded
  | .nop => .cmd32 (cmdWord 0 0)
  | .init => .cmd32 (cmdWord 0 1)
  | .compress => .cmd32 (cmdWord 0 2)
  | .digest => .cmd32 (cmdWord 0 3)
  | .hmac => .cmd32 (cmdWord 0 4)
  | .keyprep => .cmd32 (cmdWord 0 5)
  | .ipad => .cmd32 (cmdWord 0 6)
  | .opad => .cmd32 (cmdWord 0 7)
  | .illegalOp low => .cmd32 (cmdWord 0 (1#1 ++ low))
  | .illegalRsv rsv op => .cmd32 (cmdWord rsv op)
  | .ff j => .step6 (stepIndex 0 j)
  | .gg j => .step6 (stepIndex 1 j)
  | .hh j => .step6 (stepIndex 2 j)
  | .ii j => .step6 (stepIndex 3 j)

/-- A row of spec/opcode_table.json: its form, and the mask and match of its fixed bits. -/
structure Row where
  form : Form
  mask : Nat
  fixed : Nat
  deriving DecidableEq, Repr

/-- The row of spec/opcode_table.json an instruction belongs to. -/
def rowOf : Instr → Row
  | .nop => ⟨.cmd32, 0xFFFFFFFF, 0x00000000⟩
  | .init => ⟨.cmd32, 0xFFFFFFFF, 0x00000001⟩
  | .compress => ⟨.cmd32, 0xFFFFFFFF, 0x00000002⟩
  | .digest => ⟨.cmd32, 0xFFFFFFFF, 0x00000003⟩
  | .hmac => ⟨.cmd32, 0xFFFFFFFF, 0x00000004⟩
  | .keyprep => ⟨.cmd32, 0xFFFFFFFF, 0x00000005⟩
  | .ipad => ⟨.cmd32, 0xFFFFFFFF, 0x00000006⟩
  | .opad => ⟨.cmd32, 0xFFFFFFFF, 0x00000007⟩
  | .illegalOp _ => ⟨.cmd32, 0xFFFFFFF8, 0x00000008⟩
  | .illegalRsv _ _ => ⟨.cmd32, 0x00000000, 0x00000000⟩
  | .ff _ => ⟨.step6, 0x30, 0x00⟩
  | .gg _ => ⟨.step6, 0x30, 0x10⟩
  | .hh _ => ⟨.step6, 0x30, 0x20⟩
  | .ii _ => ⟨.step6, 0x30, 0x30⟩

/-- An encoding has a row's form and its fixed bits. -/
def Row.admits (r : Row) : Encoded → Bool
  | .cmd32 w => r.form == .cmd32 && w.toNat &&& r.mask == r.fixed
  | .step6 i => r.form == .step6 && i.toNat &&& r.mask == r.fixed

end Sys2Proof
end

