-- ==== Sys2Proof/Config.lean ====
section
/-! DEFINITION. The free values behind every "any value" of the spec (00_scope.md R7 DRAW, R14), with no body: nothing can be proved about what they are. -/

namespace Sys2Proof.Config

/-- The word drawn at event `n` for slot `slot` (00_scope.md R14, 93 U4). -/
opaque drawWord : (n slot : Nat) → Word

/-- The byte drawn at event `n` for source address `a` (20_memory.md R68, R70). -/
opaque drawByte : (n a : Nat) → Byte

end Sys2Proof.Config
end

