-- ==== Sys2Proof/Machine/State.lean ====
section
/-! DEFINITION. The machine's state as plain data: every register of the window (10_state.md R20 to R34), the engine's sequencing state (R33, R35), the platform's parameters (R43) and the model's own fields, and the state after reset (R42). INVENTORY.md lists each with its rule. -/

namespace Sys2Proof.Machine

/-- The content of a data register word: a value, or the spec's "any value" (00_scope.md R14): then each read
draws anew, since "Two reads of the same "any value" register need not agree". -/
inductive Reg where
  | known (w : Word)
  | anyValue
  deriving DecidableEq, Repr

/-- The error codes of STATUS.ECODE (60_exceptions.md R211); 5 to 15 are never produced. -/
inductive ErrCode where
  /-- 0 NONE: no error. -/
  | none
  /-- 1 ILLEGAL_CMD (R216). -/
  | illegalCmd
  /-- 2 TOO_LARGE (R212). -/
  | tooLarge
  /-- 3 ADDR_RANGE (R213). -/
  | addrRange
  /-- 4 BUS_ERR (R214). -/
  | busErr
  deriving DecidableEq, Repr

/-- STATUS without BUSY, which `Stage` holds (10_state.md R22). -/
structure Status where
  done  : Bool
  err   : Bool
  ovr   : Bool
  ecode : ErrCode
  deriving DecidableEq, Repr

/-- PHASE (10_state.md R35): `idle` is IDLE, the others are BUSY and say where in a command the engine is. -/
inductive Stage where
  /-- No command is executing. -/
  | idle
  /-- A command was accepted and nothing of its effect is done (44_commands.md R175, R176). -/
  | accepted
  /-- Step-level run: a block is about to be loaded (41_compression_core.md R121). -/
  | blockStart
  /-- Step-level run: round step STEP is next (41_compression_core.md R126). -/
  | rounds
  /-- Step-level run: the 64 steps are done, the feed-forward is next (41_compression_core.md R128). -/
  | feedForward
  deriving DecidableEq, Repr

/-- The pass number of a multi-pass command (10_state.md R35, 43_hmac.md R166). DESIGN CHOICE (log 23): 0 between
commands and in the one pass of DIGEST, where the spec gives none. -/
inductive Pass where
  /-- 0: key compression. -/
  | key
  /-- 1: the inner pass. -/
  | inner
  /-- 2: the outer pass. -/
  | outer
  deriving DecidableEq, Repr

/-- The working registers WA, WB, WC, WD (10_state.md R33). -/
structure Work where
  wa : Word
  wb : Word
  wc : Word
  wd : Word
  deriving DecidableEq, Repr

/-- A run of source addresses `base .. base+size-1` (20_memory.md R66, R69). -/
structure Region where
  base : Nat
  size : Nat
  deriving DecidableEq, Repr

/-- A register access of the host: its width in bytes and its host address (20_memory.md R64, 30_encoding.md R90). -/
inductive Access where
  | read (width addr : Nat)
  | write (width addr : Nat) (value : Word)
  deriving DecidableEq, Repr

/-- What the outside world does next (00_scope.md R17); the engine's moves stand among the host's, since no rule
fixes how long a command takes (70_reset_and_hazards.md R252). -/
inductive Input where
  /-- The host reads or writes a register. -/
  | access (a : Access)
  /-- The host stores a byte to the source memory (30_encoding.md R90 `mem`). -/
  | store (a : Word) (b : Byte)
  /-- The host polls STATUS until BUSY is 0 (30_encoding.md R91 `wait`). -/
  | wait
  /-- The reset input is asserted (70_reset_and_hazards.md R240). -/
  | reset
  /-- The engine moves; an accepted command's effect is one transition (44_commands.md R176, atomic). -/
  | engine
  /-- The engine moves; an accepted command starts a step-level run (44_commands.md R176, step-level). -/
  | micro
  deriving DecidableEq, Repr

/-- The machine's state. -/
structure State where
  -- the register window (10_state.md R20)
  status    : Status
  ie        : Bool
  msgAddr   : Word
  msgLen    : Word
  keyAddr   : Word
  keyLen    : Word
  acc       : Vector Reg 4
  digest    : Vector Reg 4
  xbuf      : Vector Reg 16
  kbuf      : Vector Reg 16
  -- the engine (10_state.md R33, R35)
  work      : Work
  chain     : Quad
  innerHash : Quad
  stage     : Stage
  cmd       : Word
  pass      : Pass
  block     : Nat
  stepIdx   : BitVec 6
  -- the platform's parameters (10_state.md R43)
  mem       : List Host.Cell
  absent    : List Region
  device    : List Region
  mmioBase  : Nat
  -- the model's own fields
  racing    : List Host.Cell
  inputs    : List Input
  rdata     : Word
  draws     : Nat
  deriving DecidableEq, Repr

/-- Reasons to stop with a fault: none. The block takes no trap (60_exceptions.md R221) and every error of a
command is a completion reported in STATUS (R210, R177), so no meaning and no host access faults. -/
inductive Fault where
  deriving DecidableEq, Repr

/-- Reasons to refuse. -/
inductive Refusal where
  /-- Raised by an arm of exec that has no meaning yet: none is left. Safe: the machine stops. -/
  | notModelled (mnemonic : String)
  /-- Raised by a host register access that is not 32 bits wide, not 4-byte aligned or not inside the window:
  "A model refuses it" (20_memory.md R64, 30_encoding.md R92; log 13). Safe: the machine stops where the platform
  would answer the host with a bus error and the block's state would not change. -/
  | badAccess
  deriving DecidableEq, Repr

/-- What every meaning answers. -/
abbrev Outcome := Host.Outcome State Fault Refusal

/-- The state after reset (10_state.md R42). Fields the spec states no reset value for are 0 (DESIGN CHOICE, log 9);
the platform's parameters are an all-zero source memory that answers everywhere (log 5 to 8); no statement rests
on `draws` (log 3). -/
def State.reset : State where
  status    := ⟨false, false, false, .none⟩
  ie        := false
  msgAddr   := 0
  msgLen    := 0
  keyAddr   := 0
  keyLen    := 0
  acc       := #v[.known 0x67452301, .known 0xEFCDAB89, .known 0x98BADCFE, .known 0x10325476]
  digest    := Vector.replicate 4 (.known 0)
  xbuf      := Vector.replicate 16 (.known 0)
  kbuf      := Vector.replicate 16 (.known 0)
  work      := ⟨0, 0, 0, 0⟩
  chain     := Vector.replicate 4 0
  innerHash := Vector.replicate 4 0
  stage     := .idle
  cmd       := 0
  pass      := .key
  block     := 0
  stepIdx   := 0
  mem       := []
  absent    := []
  device    := []
  mmioBase  := 0
  racing    := []
  inputs    := []
  rdata     := 0
  draws     := 0

end Sys2Proof.Machine
end

