-- ==== Sys2Proof/Machine/Flags.lean ====
section
/-! DEFINITION. STATUS, CTRL and irq: their words (10_state.md R22, R27), what a host write does to them (R24 to R27), and how a command sets STATUS at acceptance and at completion (44_commands.md R175, R177). -/

namespace Sys2Proof.Machine

/-- ECODE, bits [7:4] (60_exceptions.md R211). -/
def ErrCode.code : ErrCode → BitVec 4
  | .none => 0
  | .illegalCmd => 1
  | .tooLarge => 2
  | .addrRange => 3
  | .busErr => 4

/-- PHASE is BUSY (10_state.md R35); STATUS.BUSY mirrors it (R23). -/
def Stage.busy : Stage → Bool
  | .idle => false
  | .accepted | .blockStart | .rounds | .feedForward => true

/-- STATUS.BUSY (10_state.md R23). -/
def State.busy (s : State) : Bool := s.stage.busy

/-- The word a read of STATUS returns (10_state.md R22): [31:8] = 0, ECODE, OVR, ERR, DONE, BUSY. -/
def statusWord (busy : Bool) (st : Status) : Word :=
  0#24 ++ st.ecode.code ++ BitVec.ofBool st.ovr ++ BitVec.ofBool st.err ++ BitVec.ofBool st.done ++ BitVec.ofBool busy

/-- STATUS as the host reads it. -/
def State.statusWord (s : State) : Word := Machine.statusWord s.busy s.status

/-- CTRL as the host reads it (10_state.md R27): [31:1] = 0, IE. -/
def State.ctrlWord (s : State) : Word := 0#31 ++ BitVec.ofBool s.ie

/-- The output irq = IE AND DONE (10_state.md R40, 60_exceptions.md R219). -/
def State.irq (s : State) : Bool := s.ie && s.status.done

/-- STATUS after a host write of `v`: write-1-to-clear of DONE (bit 1, R24), of ERR with ECODE (bit 2, R25) and of
OVR (bit 3, R26); a 0 leaves its bit unchanged (R22). This is also the return from a completion, `ack`
(60_exceptions.md R222). -/
def acknowledge (v : Word) (st : Status) : Status where
  done := st.done && !v.getLsbD 1
  err := st.err && !v.getLsbD 2
  ovr := st.ovr && !v.getLsbD 3
  ecode := if v.getLsbD 2 then .none else st.ecode

/-- STATUS at acceptance: DONE, ERR and ECODE cleared, OVR kept (44_commands.md R175, 10_state.md R26). -/
def Status.atAcceptance (st : Status) : Status := ⟨false, false, st.ovr, .none⟩

/-- STATUS at completion with error code `e` (44_commands.md R177, 10_state.md R24, R25), OVR kept.
DEDUCED (log 12): `e = none` leaves ERR = 0 and ECODE = 0, as R25 says, whatever they were before. -/
def Status.atCompletion (e : ErrCode) (st : Status) : Status := ⟨true, e != .none, st.ovr, e⟩

/-- STATUS when a write is dropped because the engine is BUSY (10_state.md R26, R39). -/
def Status.overrun (st : Status) : Status := { st with ovr := true }

end Sys2Proof.Machine
end

