-- ==== Sys2Proof/Machine/Tables.lean ====
section
/-! DEFINITION. The block's constant tables (10_state.md R36): IV (41_compression_core.md R110) and the 64-step schedule R118, transcribed row by row. -/

namespace Sys2Proof.Machine

/-- IV (41_compression_core.md R110). -/
def iv : Quad := #v[0x67452301, 0xEFCDAB89, 0x98BADCFE, 0x10325476]

/-- One row of the schedule: k = K[i], s = S[i], T[i] (41_compression_core.md R118). -/
structure StepRow where
  k : Fin 16
  s : Nat
  t : Word
  deriving DecidableEq, Repr

/-- Rows 0 to 15 (FF). -/
def scheduleF : List StepRow :=
  [⟨0, 7, 0xD76AA478⟩, ⟨1, 12, 0xE8C7B756⟩, ⟨2, 17, 0x242070DB⟩, ⟨3, 22, 0xC1BDCEEE⟩,
   ⟨4, 7, 0xF57C0FAF⟩, ⟨5, 12, 0x4787C62A⟩, ⟨6, 17, 0xA8304613⟩, ⟨7, 22, 0xFD469501⟩,
   ⟨8, 7, 0x698098D8⟩, ⟨9, 12, 0x8B44F7AF⟩, ⟨10, 17, 0xFFFF5BB1⟩, ⟨11, 22, 0x895CD7BE⟩,
   ⟨12, 7, 0x6B901122⟩, ⟨13, 12, 0xFD987193⟩, ⟨14, 17, 0xA679438E⟩, ⟨15, 22, 0x49B40821⟩]

/-- Rows 16 to 31 (GG). -/
def scheduleG : List StepRow :=
  [⟨1, 5, 0xF61E2562⟩, ⟨6, 9, 0xC040B340⟩, ⟨11, 14, 0x265E5A51⟩, ⟨0, 20, 0xE9B6C7AA⟩,
   ⟨5, 5, 0xD62F105D⟩, ⟨10, 9, 0x02441453⟩, ⟨15, 14, 0xD8A1E681⟩, ⟨4, 20, 0xE7D3FBC8⟩,
   ⟨9, 5, 0x21E1CDE6⟩, ⟨14, 9, 0xC33707D6⟩, ⟨3, 14, 0xF4D50D87⟩, ⟨8, 20, 0x455A14ED⟩,
   ⟨13, 5, 0xA9E3E905⟩, ⟨2, 9, 0xFCEFA3F8⟩, ⟨7, 14, 0x676F02D9⟩, ⟨12, 20, 0x8D2A4C8A⟩]

/-- Rows 32 to 47 (HH). -/
def scheduleH : List StepRow :=
  [⟨5, 4, 0xFFFA3942⟩, ⟨8, 11, 0x8771F681⟩, ⟨11, 16, 0x6D9D6122⟩, ⟨14, 23, 0xFDE5380C⟩,
   ⟨1, 4, 0xA4BEEA44⟩, ⟨4, 11, 0x4BDECFA9⟩, ⟨7, 16, 0xF6BB4B60⟩, ⟨10, 23, 0xBEBFBC70⟩,
   ⟨13, 4, 0x289B7EC6⟩, ⟨0, 11, 0xEAA127FA⟩, ⟨3, 16, 0xD4EF3085⟩, ⟨6, 23, 0x04881D05⟩,
   ⟨9, 4, 0xD9D4D039⟩, ⟨12, 11, 0xE6DB99E5⟩, ⟨15, 16, 0x1FA27CF8⟩, ⟨2, 23, 0xC4AC5665⟩]

/-- Rows 48 to 63 (II). -/
def scheduleI : List StepRow :=
  [⟨0, 6, 0xF4292244⟩, ⟨7, 10, 0x432AFF97⟩, ⟨14, 15, 0xAB9423A7⟩, ⟨5, 21, 0xFC93A039⟩,
   ⟨12, 6, 0x655B59C3⟩, ⟨3, 10, 0x8F0CCC92⟩, ⟨10, 15, 0xFFEFF47D⟩, ⟨1, 21, 0x85845DD1⟩,
   ⟨8, 6, 0x6FA87E4F⟩, ⟨15, 10, 0xFE2CE6E0⟩, ⟨6, 15, 0xA3014314⟩, ⟨13, 21, 0x4E0811A1⟩,
   ⟨4, 6, 0xF7537E82⟩, ⟨11, 10, 0xBD3AF235⟩, ⟨2, 15, 0x2AD7D2BB⟩, ⟨9, 21, 0xEB86D391⟩]

/-- The complete schedule (41_compression_core.md R118). -/
def schedule : List StepRow := scheduleF ++ scheduleG ++ scheduleH ++ scheduleI

/-- Row `i` of the schedule. -/
def stepRow (i : BitVec 6) : StepRow := schedule.getD i.toNat ⟨0, 0, 0⟩

/-- K[i], the message-word index (41_compression_core.md R117). -/
def wordIndex (i : BitVec 6) : Fin 16 := (stepRow i).k

/-- S[i], the rotation amount (41_compression_core.md R116). -/
def rotation (i : BitVec 6) : Nat := (stepRow i).s

/-- T[i], the round constant (41_compression_core.md R115). -/
def roundConst (i : BitVec 6) : Word := (stepRow i).t

end Sys2Proof.Machine
end

