-- ==== Sys2Proof/Machine/Ops.lean ====
section
/-! DEFINITION. The shared operations: the source memory in canonical form (20_memory.md R60, R61, R70), the engine's reads (00_scope.md R13), the region checks (60_exceptions.md R212, R213), acceptance, completion and the error outcome (44_commands.md R175, R177; 60_exceptions.md R217), and the free values of the engine's internal registers (10_state.md R33). -/

namespace Sys2Proof.Machine

/-! ### The source memory -/

/-- What a source byte that nothing has listed reads as. DESIGN CHOICE (log 7): the spec gives no contents. -/
def Memory.blank : Byte := 0

/-- The size of the source address space, 2^32 bytes (20_memory.md R60). -/
def sourceSize : Nat := 2 ^ 32

/-- The byte at address `a`. -/
def Memory.read : List Host.Cell → Nat → Byte
  | [], _ => Memory.blank
  | (k, b) :: rest, a => if k = a then b else Memory.read rest a

/-- The memory with byte `b` at address `a`, in canonical form. -/
def Memory.write : List Host.Cell → Nat → Byte → List Host.Cell
  | [], a, b => if b = Memory.blank then [] else [(a, b)]
  | (k, c) :: rest, a, b =>
    if a < k then (if b = Memory.blank then (k, c) :: rest else (a, b) :: (k, c) :: rest)
    else if a = k then (if b = Memory.blank then rest else (a, b) :: rest)
    else (k, c) :: Memory.write rest a b

/-- The canonical form: addresses strictly rising and inside the space, no entry equal to an unlisted byte. -/
def Memory.wf : List Host.Cell → Bool
  | [] => true
  | (k, b) :: rest => decide (k < sourceSize) && b != Memory.blank && rest.all (fun c => decide (k < c.1)) && Memory.wf rest

/-- Address `a` lies in the region. -/
def Region.has (r : Region) (a : Nat) : Bool := decide (r.base ≤ a) && decide (a < r.base + r.size)

/-- The region meets `a .. a+n-1`. -/
def Region.meets (r : Region) (a n : Nat) : Bool := decide (max r.base a < min (r.base + r.size) (a + n))

/-- BUS_OK(a) (20_memory.md R61): the platform answers a read of `a`. -/
def State.busOk (s : State) (a : Nat) : Bool := !s.absent.any (fun r => r.has a)

/-- The drawn value of a byte stored to while BUSY, if there is one (20_memory.md R70). -/
def lookupByte : List Host.Cell → Nat → Option Byte
  | [], _ => none
  | (k, b) :: rest, a => if k = a then some b else lookupByte rest a

/-- The value the digest rules use for source byte `a`: MEM[a], or any byte value if `a` was stored to while BUSY
(20_memory.md R70, log 4) or reading it has side effects (R68, log 5). One value per address and command. -/
def State.sourceByte (s : State) (a : Nat) : Byte :=
  if s.device.any (fun r => r.has a) then Config.drawByte s.draws a
  else match lookupByte s.racing a with
    | some b => b
    | none => Memory.read s.mem a

/-- MemRead(a, n) (00_scope.md R13): the bytes at a .. a+n-1, or `none` where a read returns BusError. -/
def State.memRead (s : State) : (a n : Nat) → Option (List Byte)
  | _, 0 => some []
  | a, n + 1 => if s.busOk a then (s.memRead (a + 1) n).map (s.sourceByte a :: ·) else none

/-- The region a .. a+n-1 includes an address whose read has side effects (20_memory.md R68). -/
def State.meetsDevice (s : State) (a n : Nat) : Bool := s.device.any (fun r => r.meets a n)

/-- A byte of the region a .. a+n-1 was stored to while BUSY (20_memory.md R70). -/
def State.meetsRace (s : State) (a n : Nat) : Bool := s.racing.any (fun c => decide (a ≤ c.1) && decide (c.1 < a + n))

/-! ### The checks of a region -/

/-- A digest input must be shorter than 2^29 bytes (00_scope.md R6 MAX_LEN, 60_exceptions.md R212). -/
def lengthLimit : Nat := 2 ^ 29

/-- The checks of a region in their order (60_exceptions.md R212, R213, R218): `pre` is how many bytes the engine
itself puts before it in the digest pass. Lengths and addresses are unbounded integers (00_scope.md R10). -/
def regionError (pre a n : Nat) : ErrCode :=
  if lengthLimit ≤ pre + n then .tooLarge
  else if sourceSize < a + n then .addrRange
  else .none

/-- The checks of DIGEST (60_exceptions.md R218.2). -/
def State.digestError (s : State) : ErrCode := regionError 0 s.msgAddr.toNat s.msgLen.toNat

/-- The checks of KEYPREP (60_exceptions.md R218.3). -/
def State.keyError (s : State) : ErrCode := regionError 0 s.keyAddr.toNat s.keyLen.toNat

/-- The checks of HMAC: the key's, then the message's (60_exceptions.md R218.4, 43_hmac.md R167). -/
def State.hmacError (s : State) : ErrCode :=
  match s.keyError with
  | .none => regionError 64 s.msgAddr.toNat s.msgLen.toNat
  | .illegalCmd => .illegalCmd
  | .tooLarge => .tooLarge
  | .addrRange => .addrRange
  | .busErr => .busErr

/-- The message's bytes (20_memory.md R67). -/
def State.message (s : State) : Option (List Byte) := s.memRead s.msgAddr.toNat s.msgLen.toNat

/-- The key's bytes (43_hmac.md R160). -/
def State.key (s : State) : Option (List Byte) := s.memRead s.keyAddr.toNat s.keyLen.toNat

/-! ### Registers that hold known values or any value -/

/-- Four known words. -/
def knownQuad (q : Quad) : Vector Reg 4 := Vector.ofFn fun j => .known q[j]

/-- Sixteen known words. -/
def knownBlock (b : Block) : Vector Reg 16 := Vector.ofFn fun j => .known b[j]

/-- Four words of any value. -/
def anyQuad : Vector Reg 4 := Vector.replicate 4 .anyValue

/-- Sixteen words of any value. -/
def anyBlock : Vector Reg 16 := Vector.replicate 16 .anyValue

/-! ### Acceptance, completion, errors -/

/-- Acceptance of a CMD write (44_commands.md R175): PHASE and STATUS, the latched word; the bytes stored to from
here on are the running command's races (20_memory.md R70). -/
def accept (v : Word) (s : State) : State :=
  { s with stage := .accepted, status := s.status.atAcceptance, cmd := v, racing := [] }

/-- Completion of a command with error code `e` (44_commands.md R177): PHASE and STATUS, STEP 0, and the next "any value"
is a new draw. DESIGN CHOICE (log 23): the spec gives no pass number and no block index after a completion; they become
0, and the latch keeps its word. -/
def complete (e : ErrCode) (s : State) : State :=
  { s with
    stage := .idle, status := s.status.atCompletion e, pass := .key, block := 0, stepIdx := 0,
    racing := [], draws := s.draws + 1 }

/-- The engine-internal registers after a command that used the digest datapath: free values, since "Between
commands their value is never observed, and a model may leave them undefined" (10_state.md R33, log 10). -/
def freeEngine (s : State) : State :=
  { s with
    work := ⟨Config.drawWord s.draws 36, Config.drawWord s.draws 37, Config.drawWord s.draws 38, Config.drawWord s.draws 39⟩
    chain := Vector.ofFn fun j => Config.drawWord s.draws (40 + j.val)
    innerHash := Vector.ofFn fun j => Config.drawWord s.draws (44 + j.val) }

/-- TAKING AN ERROR: `raise Error(e)` for a check error ends the command with STATUS written and nothing else
(60_exceptions.md R210, R217). The return from it is `acknowledge` (R222). -/
def raiseError (e : ErrCode) (s : State) : State := complete e s

/-- `raise Error(BUS_ERR)`: DIGEST is kept and the registers the command writes on success hold any value
(60_exceptions.md R217): ACC and XBUF, and KBUF for HMAC and KEYPREP (`withKbuf`).
DEDUCED (log 11): for KEYPREP this is R217's whole list, whatever KEY_LEN. -/
def raiseBusErr (withKbuf : Bool) (s : State) : State :=
  raiseError .busErr (freeEngine
    { s with acc := anyQuad, xbuf := anyBlock, kbuf := if withKbuf then anyBlock else s.kbuf })

/-- The end of a DIGEST or HMAC command without error: the result in ACC and DIGEST, XBUF any value
(44_commands.md R183, R184). -/
def finishDigest (r : Vector Reg 4) (s : State) : State :=
  complete .none (freeEngine { s with acc := r, digest := r, xbuf := anyBlock })

end Sys2Proof.Machine
end

