-- ==== Sys2Proof/Machine/Operands.lean ====
section
/-! DEFINITION. Operand forms: the words of a data register read as a command's operand (30_encoding.md R84, 44_commands.md R179), and the window's register names by offset (10_state.md R20, 30_encoding.md R92). -/

namespace Sys2Proof.Machine

/-- The value one read of a register word gives; `d` is the draw behind "any value" (00_scope.md R14). -/
def Reg.value (d : Word) : Reg → Word
  | .known w => w
  | .anyValue => d

/-- The word holds any value. -/
def Reg.isAny : Reg → Bool
  | .known _ => false
  | .anyValue => true

/-- ACC as a command reads it: each word once (44_commands.md R179). -/
def State.accOperand (s : State) : Quad := Vector.ofFn fun j => s.acc[j].value (Config.drawWord s.draws j.val)

/-- XBUF as a command reads it. -/
def State.xbufOperand (s : State) : Block := Vector.ofFn fun j => s.xbuf[j].value (Config.drawWord s.draws (4 + j.val))

/-- KBUF as a command reads it. -/
def State.kbufOperand (s : State) : Block := Vector.ofFn fun j => s.kbuf[j].value (Config.drawWord s.draws (20 + j.val))

/-- The registers of the window by name (10_state.md R20). -/
inductive WindowReg where
  | cmd
  | status
  | ctrl
  | msgAddr
  | msgLen
  | keyAddr
  | keyLen
  | acc (j : Fin 4)
  | digest (j : Fin 4)
  | xbuf (j : Fin 16)
  | kbuf (j : Fin 16)
  | reserved
  deriving DecidableEq, Repr

/-- The size of the register window in bytes (10_state.md R20). -/
def windowSize : Nat := 256

/-- The register at word `q` of the window, that is at offset 4q (30_encoding.md R92). -/
def windowRegAt (q : Nat) : WindowReg :=
  if q = 0x00 then .cmd
  else if q = 0x01 then .status
  else if q = 0x02 then .ctrl
  else if q = 0x04 then .msgAddr
  else if q = 0x05 then .msgLen
  else if q = 0x06 then .keyAddr
  else if q = 0x07 then .keyLen
  else if 0x08 ≤ q ∧ q < 0x0C then .acc (Fin.ofNat 4 (q - 0x08))
  else if 0x0C ≤ q ∧ q < 0x10 then .digest (Fin.ofNat 4 (q - 0x0C))
  else if 0x10 ≤ q ∧ q < 0x20 then .xbuf (Fin.ofNat 16 (q - 0x10))
  else if 0x20 ≤ q ∧ q < 0x30 then .kbuf (Fin.ofNat 16 (q - 0x20))
  else .reserved

/-- The register a host access of `width` bytes at host address `addr` selects; `none` where the access is not
32-bit, aligned and inside the window (20_memory.md R64, 30_encoding.md R92). -/
def selectReg (base width addr : Nat) : Option WindowReg :=
  if width = 4 ∧ base ≤ addr ∧ addr < base + windowSize ∧ (addr - base) % 4 = 0 then
    some (windowRegAt ((addr - base) / 4))
  else none

/-- The byte offset of a register from MMIO_BASE (10_state.md R20); a reserved offset's is 0x00C. -/
def WindowReg.offset : WindowReg → Nat
  | .cmd => 0x000
  | .status => 0x004
  | .ctrl => 0x008
  | .msgAddr => 0x010
  | .msgLen => 0x014
  | .keyAddr => 0x018
  | .keyLen => 0x01C
  | .acc j => 0x020 + 4 * j.val
  | .digest j => 0x030 + 4 * j.val
  | .xbuf j => 0x040 + 4 * j.val
  | .kbuf j => 0x080 + 4 * j.val
  | .reserved => 0x00C

end Sys2Proof.Machine
end

