-- ==== Sys2Proof/Machine/Codec.lean ====
section
/-! DEFINITION. The WordCodec (40_word_codec.md): bytes to little-endian words and back. -/

namespace Sys2Proof.Machine

/-- Byte `q` of a byte string, 0x00 past its end (40_word_codec.md R100). -/
def byteAt (s : List Byte) (q : Nat) : Byte := s.getD q 0

/-- The little-endian word of the bytes at q .. q+3 (20_memory.md R62, 40_word_codec.md R100). -/
def wordAt (s : List Byte) (q : Nat) : Word :=
  (byteAt s q).setWidth 32 ||| (byteAt s (q + 1)).setWidth 32 <<< 8
    ||| (byteAt s (q + 2)).setWidth 32 <<< 16 ||| (byteAt s (q + 3)).setWidth 32 <<< 24

/-- bytesToWords (40_word_codec.md R100). -/
def bytesToWords (s : List Byte) : List Word := (List.range ((s.length + 3) / 4)).map fun j => wordAt s (4 * j)

/-- The four bytes of a word, the least significant first (40_word_codec.md R102). -/
def wordBytes (w : Word) : List Byte :=
  [w.extractLsb' 0 8, w.extractLsb' 8 8, w.extractLsb' 16 8, w.extractLsb' 24 8]

/-- All the bytes of a word sequence. -/
def bytesOfWords (w : List Word) : List Byte := w.flatMap wordBytes

/-- wordsToBytes(w, nbits) (40_word_codec.md R102); `none` for a bit length the rule does not admit (93 U10). -/
def wordsToBytes (w : List Word) (nbits : Nat) : Option (List Byte) :=
  if nbits % 8 = 0 ∧ nbits ≤ 32 * w.length then some ((bytesOfWords w).take (nbits / 8)) else none

/-- The 64 bytes of a byte string from byte `64 b` as a block (40_word_codec.md R105). -/
def blockAt (p : List Byte) (b : Nat) : Block := Vector.ofFn fun j => wordAt ((p.drop (64 * b)).take 64) (4 * j.val)

/-- A 64-byte string as a block. -/
def toBlock (p : List Byte) : Block := blockAt p 0

/-- The 16 bytes of an AccumulatorState or digest (40_word_codec.md R104). -/
def quadBytes (q : Quad) : List Byte := bytesOfWords q.toList

/-- The 64 bytes of a block (40_word_codec.md R106). -/
def blockBytes (b : Block) : List Byte := bytesOfWords b.toList

end Sys2Proof.Machine
end

