-- ==== Sys2Proof/Machine/Compression.lean ====
section
/-! DEFINITION. The CompressionCore (41_compression_core.md): round functions, the step primitive, the four steps and the block function. -/

namespace Sys2Proof.Machine

/-- Round function F (41_compression_core.md R111). -/
def roundF (b c d : Word) : Word := (b &&& c) ||| (~~~b &&& d)

/-- Round function G (41_compression_core.md R112). -/
def roundG (b c d : Word) : Word := (b &&& d) ||| (c &&& ~~~d)

/-- Round function H (41_compression_core.md R113). -/
def roundH (b c d : Word) : Word := b ^^^ c ^^^ d

/-- Round function I (41_compression_core.md R114). -/
def roundI (b c d : Word) : Word := c ^^^ (b ||| ~~~d)

/-- rotl32(x, s) (00_scope.md R9). -/
def rotl32 (x : Word) (s : Nat) : Word := x <<< s ||| x >>> (32 - s)

/-- The step primitive (41_compression_core.md R120). -/
def combine (f a b x : Word) (s : Nat) (t : Word) : Word := b + rotl32 (a + f + x + t) s

/-- One step with round function `fn`, operands of step `i` and message word `x`: all four registers are read before
any is written (41_compression_core.md R122 to R125). -/
def Work.step (fn : Word → Word → Word → Word) (i : BitVec 6) (x : Word) (w : Work) : Work where
  wa := w.wd
  wb := combine (fn w.wb w.wc w.wd) w.wa w.wb x (rotation i) (roundConst i)
  wc := w.wb
  wd := w.wc

/-- FN(i): the round function of step i (41_compression_core.md R119). -/
def roundFn (i : BitVec 6) : Word → Word → Word → Word :=
  match (rndField i).toNat with
  | 0 => roundF
  | 1 => roundG
  | 2 => roundH
  | _ => roundI

/-- Step(i, W, X) (41_compression_core.md R122 to R125). -/
def stepOf (i : BitVec 6) (x : Block) (w : Work) : Work := w.step (roundFn i) i x[wordIndex i]

/-- Block start: the working registers from the chaining value (41_compression_core.md R121). -/
def Work.ofQuad (q : Quad) : Work := ⟨q[0], q[1], q[2], q[3]⟩

/-- The working registers after the first `n` steps of a block, in order (41_compression_core.md R126). -/
def workAfter (q : Quad) (x : Block) : Nat → Work
  | 0 => Work.ofQuad q
  | n + 1 => stepOf (BitVec.ofNat 6 n) x (workAfter q x n)

/-- Feed-forward (41_compression_core.md R128). -/
def feedForward (q : Quad) (w : Work) : Quad := #v[q[0] + w.wa, q[1] + w.wb, q[2] + w.wc, q[3] + w.wd]

/-- Compress(acc, X) (41_compression_core.md R127). -/
def compress (q : Quad) (x : Block) : Quad := feedForward q (workAfter q x 64)

end Sys2Proof.Machine
end

