-- ==== Sys2Proof/Machine/Padder.lean ====
section
/-! DEFINITION. The Padder and the DigestEngine (42_padder_digest.md). -/

namespace Sys2Proof.Machine

/-- `n` bytes of 0x00 (00_scope.md R11). -/
def zeros (n : Nat) : List Byte := List.replicate n 0

/-- LE64(L): the eight bytes of a 64-bit length, the least significant first (42_padder_digest.md R141). -/
def le64 (l : Nat) : List Byte := (List.range 8).map fun k => BitVec.ofNat 8 (l / 2 ^ (8 * k))

/-- z = (55 - n) mod 64, the number of zero fill bytes (42_padder_digest.md R141). -/
def padZeros (n : Nat) : Nat := (55 + 63 * n) % 64

/-- Pad(m) (42_padder_digest.md R141). -/
def pad (m : List Byte) : List Byte := m ++ [0x80] ++ zeros (padZeros m.length) ++ le64 (8 * m.length)

/-- NB, the number of blocks of a padded message of `n` bytes (42_padder_digest.md R143). -/
def blockCount (n : Nat) : Nat := (n + 8) / 64 + 1

/-- The chaining value after the first `b` blocks of a padded string (41_compression_core.md R129). -/
def chainAfter (p : List Byte) : Nat → Quad
  | 0 => iv
  | b + 1 => compress (chainAfter p b) (blockAt p b)

/-- DigestWords(m) (42_padder_digest.md R146). -/
def digestWords (m : List Byte) : Quad := chainAfter (pad m) ((pad m).length / 64)

/-- Digest(m), 16 bytes (42_padder_digest.md R146, 40_word_codec.md R104). -/
def digestBytes (m : List Byte) : List Byte := quadBytes (digestWords m)

end Sys2Proof.Machine
end

