-- ==== Sys2Proof/Machine/Hmac.lean ====
section
/-! DEFINITION. The HmacEngine's functions (43_hmac.md): key normalisation, the pad blocks and HMAC. -/

namespace Sys2Proof.Machine

/-- A key of at most 64 bytes, zero-extended to 64 (43_hmac.md R161). -/
def extendKey (k : List Byte) : List Byte := k ++ zeros (64 - k.length)

/-- NormKey(k), K0 (43_hmac.md R161). -/
def normKey (k : List Byte) : List Byte := extendKey (if 64 < k.length then digestBytes k else k)

/-- IpadBlock(K0) (43_hmac.md R163). -/
def ipadBlock (k0 : List Byte) : List Byte := k0.map (· ^^^ 0x36)

/-- OpadBlock(K0) (43_hmac.md R163). -/
def opadBlock (k0 : List Byte) : List Byte := k0.map (· ^^^ 0x5C)

/-- The result words of Hmac(k, m) (43_hmac.md R165, 44_commands.md R184). -/
def hmacWords (k m : List Byte) : Quad :=
  digestWords (opadBlock (normKey k) ++ digestBytes (ipadBlock (normKey k) ++ m))

/-- Hmac(k, m), 16 bytes (43_hmac.md R165). -/
def hmacBytes (k m : List Byte) : List Byte := quadBytes (hmacWords k m)

/-- A pad block in word form: each word of KBUF XOR the constant (43_hmac.md R164). -/
def padWords (c : Word) (kb : Block) : Block := Vector.ofFn fun j => kb[j] ^^^ c

end Sys2Proof.Machine
end

