-- ==== Sys2Proof/Machine/Commands.lean ====
section
/-! DEFINITION. The meanings of the host commands (44_commands.md R180 to R188): each is the effect and the completion of an accepted command, from the state acceptance left (R175 to R177, the atomic model). -/

namespace Sys2Proof.Machine

/-- NOP (44_commands.md R180): completion only. -/
def execNop (s : State) : Outcome := .next (complete .none s)

/-- INIT (44_commands.md R181): ACC <- IV. -/
def execInit (s : State) : Outcome := .next (complete .none { s with acc := knownQuad iv })

/-- COMPRESS (44_commands.md R182): ACC <- Compress(ACC, XBUF), operands read first (R179), XBUF kept. -/
def execCompress (s : State) : Outcome :=
  .next (complete .none (freeEngine { s with acc := knownQuad (compress s.accOperand s.xbufOperand) }))

/-- The result registers of a digest pass over bytes: the digest, or any value where the bytes came from a region with
read side effects (20_memory.md R68, log 5). -/
def resultRegs (sideEffects : Bool) (d : Quad) : Vector Reg 4 := if sideEffects then anyQuad else knownQuad d

/-- DIGEST (44_commands.md R183): checks, reads, digest. -/
def execDigest (s : State) : Outcome :=
  match s.digestError with
  | .none =>
    match s.message with
    | some m => .next (finishDigest (resultRegs (s.meetsDevice s.msgAddr.toNat s.msgLen.toNat) (digestWords m)) s)
    | none => .next (raiseBusErr false s)
  | .illegalCmd => .next (raiseError .illegalCmd s)
  | .tooLarge => .next (raiseError .tooLarge s)
  | .addrRange => .next (raiseError .addrRange s)
  | .busErr => .next (raiseError .busErr s)

/-- KBUF for the key bytes `k` (43_hmac.md R161, R162): where a digested key came from a region with read side effects
its digest words are any value and the zero fill stays zero (20_memory.md R68, log 5). -/
def keyRegs (sideEffects : Bool) (k : List Byte) : Vector Reg 16 :=
  if sideEffects ∧ 64 < k.length then Vector.ofFn fun j => if j.val < 4 then .anyValue else .known 0
  else knownBlock (toBlock (normKey k))

/-- The key region has read side effects. -/
def State.keyOnDevice (s : State) : Bool := s.meetsDevice s.keyAddr.toNat s.keyLen.toNat

/-- HMAC (44_commands.md R184): checks, reads, key normalisation into KBUF, the two passes. -/
def execHmac (s : State) : Outcome :=
  match s.hmacError with
  | .none =>
    match s.key, s.message with
    | some k, some m =>
      .next (finishDigest
        (resultRegs (s.keyOnDevice || s.meetsDevice s.msgAddr.toNat s.msgLen.toNat) (hmacWords k m))
        { s with kbuf := keyRegs s.keyOnDevice k })
    | _, _ => .next (raiseBusErr true s)
  | .illegalCmd => .next (raiseError .illegalCmd s)
  | .tooLarge => .next (raiseError .tooLarge s)
  | .addrRange => .next (raiseError .addrRange s)
  | .busErr => .next (raiseError .busErr s)

/-- The end of KEYPREP without error (44_commands.md R185): KBUF, and ACC and XBUF any value if the key was digested. -/
def finishKeyprep (digested : Bool) (kb : Vector Reg 16) (s : State) : State :=
  if digested then complete .none (freeEngine { s with kbuf := kb, acc := anyQuad, xbuf := anyBlock })
  else complete .none { s with kbuf := kb }

/-- KEYPREP (44_commands.md R185): checks, reads, key normalisation into KBUF. -/
def execKeyprep (s : State) : Outcome :=
  match s.keyError with
  | .none =>
    match s.key with
    | some k => .next (finishKeyprep (decide (64 < k.length)) (keyRegs s.keyOnDevice k) s)
    | none => .next (raiseBusErr true s)
  | .illegalCmd => .next (raiseError .illegalCmd s)
  | .tooLarge => .next (raiseError .tooLarge s)
  | .addrRange => .next (raiseError .addrRange s)
  | .busErr => .next (raiseError .busErr s)

/-- IPAD (44_commands.md R186): XBUF[j] <- KBUF[j] ^ 0x36363636. -/
def execIpad (s : State) : Outcome :=
  .next (complete .none { s with xbuf := knownBlock (padWords 0x36363636 s.kbufOperand) })

/-- OPAD (44_commands.md R187): XBUF[j] <- KBUF[j] ^ 0x5C5C5C5C. -/
def execOpad (s : State) : Outcome :=
  .next (complete .none { s with xbuf := knownBlock (padWords 0x5C5C5C5C s.kbufOperand) })

/-- A reserved opcode (44_commands.md R188): ILLEGAL_CMD, nothing but STATUS. -/
def execIllegalOp (_low : BitVec 3) (s : State) : Outcome := .next (raiseError .illegalCmd s)

/-- A word with RSV not 0 (44_commands.md R188): ILLEGAL_CMD, nothing but STATUS. -/
def execIllegalRsv (_rsv : BitVec 28) (_op : BitVec 4) (s : State) : Outcome := .next (raiseError .illegalCmd s)

end Sys2Proof.Machine
end

