-- ==== Sys2Proof/Machine/Rounds.lean ====
section
/-! DEFINITION. The meanings of the four round-step micro-operations FF, GG, HH and II on the engine's registers (41_compression_core.md R122 to R125). -/

namespace Sys2Proof.Machine

/-- STEP after step `i`: one more, and 0 after 63 (10_state.md R35). -/
def nextStep (i : BitVec 6) : BitVec 6 := i + 1

/-- Where the engine is after step `i`: step 63 ends the rounds of a block (41_compression_core.md R126, R128). -/
def stageAfterStep (i : BitVec 6) : Stage → Stage
  | .rounds => if i = 63 then .feedForward else .rounds
  | .idle => .idle
  | .accepted => .accepted
  | .blockStart => .blockStart
  | .feedForward => .feedForward

/-- Round step `i` with round function `fn` on the engine's registers: message word XBUF[K[i]] (30_encoding.md R85),
working registers and STEP. A step that reads an any-value word uses up a draw (00_scope.md R14). -/
def roundStep (fn : Word → Word → Word → Word) (i : BitVec 6) (s : State) : State :=
  { s with
    work := s.work.step fn i (s.xbuf[wordIndex i].value (Config.drawWord s.draws (4 + (wordIndex i).val)))
    stepIdx := nextStep i
    stage := stageAfterStep i s.stage
    draws := if s.xbuf[wordIndex i].isAny then s.draws + 1 else s.draws }

/-- FF, step i = j (41_compression_core.md R122). -/
def execFf (j : BitVec 4) (s : State) : Outcome := .next (roundStep roundF (stepIndex 0 j) s)

/-- GG, step i = 16 + j (41_compression_core.md R123). -/
def execGg (j : BitVec 4) (s : State) : Outcome := .next (roundStep roundG (stepIndex 1 j) s)

/-- HH, step i = 32 + j (41_compression_core.md R124). -/
def execHh (j : BitVec 4) (s : State) : Outcome := .next (roundStep roundH (stepIndex 2 j) s)

/-- II, step i = 48 + j (41_compression_core.md R125). -/
def execIi (j : BitVec 4) (s : State) : Outcome := .next (roundStep roundI (stepIndex 3 j) s)

end Sys2Proof.Machine
end

