-- ==== Sys2Proof/Machine/Dispatch.lean ====
section
/-! DEFINITION. exec: one arm per constructor of Instr, each a direct call of that instruction's meaning. -/

namespace Sys2Proof.Machine

def exec (i : Instr) (s : State) : Host.Outcome State Fault Refusal :=
  match i with
  | .nop => Sys2Proof.Machine.execNop s
  | .init => Sys2Proof.Machine.execInit s
  | .compress => Sys2Proof.Machine.execCompress s
  | .digest => Sys2Proof.Machine.execDigest s
  | .hmac => Sys2Proof.Machine.execHmac s
  | .keyprep => Sys2Proof.Machine.execKeyprep s
  | .ipad => Sys2Proof.Machine.execIpad s
  | .opad => Sys2Proof.Machine.execOpad s
  | .illegalOp low => Sys2Proof.Machine.execIllegalOp low s
  | .illegalRsv rsv op => Sys2Proof.Machine.execIllegalRsv rsv op s
  | .ff j => Sys2Proof.Machine.execFf j s
  | .gg j => Sys2Proof.Machine.execGg j s
  | .hh j => Sys2Proof.Machine.execHh j s
  | .ii j => Sys2Proof.Machine.execIi j s

end Sys2Proof.Machine
end

