-- ==== Sys2Proof/Machine/HostPort.lean ====
section
/-! DEFINITION. What the outside world does to the block: register reads and writes (10_state.md R20 to R39), stores to the source memory (20_memory.md R70) and the reset input (70_reset_and_hazards.md R240). -/

namespace Sys2Proof.Machine

/-- The host has read the word `w`. -/
def deliver (w : Word) (s : State) : State := { s with rdata := w }

/-- A read of a data register word: its value while idle; any value while BUSY (10_state.md R38, log 3). A drawn
value is a new draw at each read (00_scope.md R14). -/
def deliverReg (r : Reg) (s : State) : State :=
  let r' := if s.busy then .anyValue else r
  { s with
    rdata := r'.value (Config.drawWord s.draws 0)
    draws := if r'.isAny then s.draws + 1 else s.draws }

/-- A host read of a window register (10_state.md R20, R38). -/
def hostRead (r : WindowReg) (s : State) : State :=
  match r with
  | .cmd => deliver 0 s
  | .status => deliver s.statusWord s
  | .ctrl => deliver s.ctrlWord s
  | .msgAddr => deliver s.msgAddr s
  | .msgLen => deliver s.msgLen s
  | .keyAddr => deliver s.keyAddr s
  | .keyLen => deliver s.keyLen s
  | .acc j => deliverReg s.acc[j] s
  | .digest j => deliverReg s.digest[j] s
  | .xbuf j => deliverReg s.xbuf[j] s
  | .kbuf j => deliverReg s.kbuf[j] s
  | .reserved => deliver 0 s

/-- A write to CMD or to a data register while BUSY is dropped and sets OVR (10_state.md R39); while idle it is `t`. -/
def unlessBusy (s t : State) : State := if s.busy then { s with status := s.status.overrun } else t

/-- A host write of `v` to a window register (10_state.md R20, R39; CMD: 44_commands.md R175). -/
def hostWrite (r : WindowReg) (v : Word) (s : State) : State :=
  match r with
  | .cmd => unlessBusy s (accept v s)
  | .status => { s with status := acknowledge v s.status }
  | .ctrl => { s with ie := v.getLsbD 0 }
  | .msgAddr => unlessBusy s { s with msgAddr := v }
  | .msgLen => unlessBusy s { s with msgLen := v }
  | .keyAddr => unlessBusy s { s with keyAddr := v }
  | .keyLen => unlessBusy s { s with keyLen := v }
  | .acc j => unlessBusy s { s with acc := s.acc.set j (.known v) }
  | .digest _ => s
  | .xbuf j => unlessBusy s { s with xbuf := s.xbuf.set j (.known v) }
  | .kbuf j => unlessBusy s { s with kbuf := s.kbuf.set j (.known v) }
  | .reserved => s

/-- A host register access; one that is not 32-bit, aligned and inside the window is refused (20_memory.md R64). -/
def hostAccess (a : Access) (s : State) : Outcome :=
  match a with
  | .read width addr =>
    match selectReg s.mmioBase width addr with
    | some r => .next (hostRead r s)
    | none => .refused .badAccess
  | .write width addr v =>
    match selectReg s.mmioBase width addr with
    | some r => .next (hostWrite r v s)
    | none => .refused .badAccess

/-- A host store to the source memory. While BUSY, the running command's byte there is any byte value from now on
(20_memory.md R70, log 4). -/
def storeByte (a : Word) (b : Byte) (s : State) : State :=
  let t := { s with mem := Memory.write s.mem a.toNat b }
  if s.busy then
    match lookupByte s.racing a.toNat with
    | some _ => t
    | none => { t with racing := (a.toNat, Config.drawByte s.draws a.toNat) :: s.racing, draws := s.draws + 1 }
  else t

/-- The reset input (70_reset_and_hazards.md R240): every register of the block at its reset value, any command
abandoned; the platform's parameters, the host's coming accesses and its variables are not the block's (log 22). -/
def resetBlock (s : State) : State :=
  { State.reset with
    mem := s.mem, absent := s.absent, device := s.device, mmioBase := s.mmioBase,
    inputs := s.inputs, rdata := s.rdata, draws := s.draws }

end Sys2Proof.Machine
end

