-- ==== Sys2Proof/Machine/Sequencer.lean ====
section
/-! DEFINITION. The step-level run of a command (44_commands.md R176, 43_hmac.md R166, 41_compression_core.md R121, R126, R128): the engine's moves between round steps. A move that answers `none` leaves the rest of the command to its effect as one transition, which R176 allows at any point. -/

namespace Sys2Proof.Machine

/-- The commands that use the digest datapath. -/
inductive Job where
  | compress
  | digest
  | hmac
  | keyprep
  deriving DecidableEq, Repr

/-- The datapath job of an instruction. -/
def jobOf : Instr → Option Job
  | .compress => some .compress
  | .digest => some .digest
  | .hmac => some .hmac
  | .keyprep => some .keyprep
  | .nop | .init | .ipad | .opad => none
  | .illegalOp _ | .illegalRsv _ _ => none
  | .ff _ | .gg _ | .hh _ | .ii _ => none

/-- The running command's datapath job. -/
def State.job (s : State) : Option Job := jobOf (decodeCmd s.cmd)

/-- Every word of ACC is known. -/
def State.accKnown (s : State) : Bool := s.acc.toList.all fun r => !r.isAny

/-- Every word of XBUF is known. -/
def State.xbufKnown (s : State) : Bool := s.xbuf.toList.all fun r => !r.isAny

/-- A digest pass starts: the chaining value is IV, whatever ACC held (42_padder_digest.md R146). -/
def startPass (p : Pass) (s : State) : State :=
  { s with pass := p, acc := knownQuad iv, block := 0, stage := .blockStart }

/-- The running command reads a region whose bytes are not MEM's at acceptance (20_memory.md R68, R70). -/
def irregularMessage (s : State) : Bool :=
  s.meetsRace s.msgAddr.toNat s.msgLen.toNat || s.meetsDevice s.msgAddr.toNat s.msgLen.toNat

/-- The same of the key region. -/
def irregularKey (s : State) : Bool :=
  s.meetsRace s.keyAddr.toNat s.keyLen.toNat || s.meetsDevice s.keyAddr.toNat s.keyLen.toNat

/-- From acceptance to the first block. COMPRESS starts step by step when its operands are known words (log 20), the
others when their checks pass and they have a digest pass to run. DESIGN CHOICE (log 23): R35 and R166 number the passes
of multi-pass commands only; the one pass of DIGEST runs as pass 0, and COMPRESS leaves pass and block as they are. -/
def beginStepLevel (s : State) : Option State :=
  match s.job with
  | some .compress => if s.accKnown && s.xbufKnown then some { s with stage := .blockStart } else none
  | some .digest => if s.digestError = .none then some (startPass .key s) else none
  | some .keyprep => if s.keyError = .none ∧ 64 < s.keyLen.toNat then some (startPass .key s) else none
  | some .hmac =>
    if s.hmacError = .none then
      if 64 < s.keyLen.toNat then some (startPass .key s)
      else s.key.map fun k => startPass .inner { s with kbuf := knownBlock (toBlock (extendKey k)) }
    else none
  | none => none

/-- The byte string of the running digest pass (43_hmac.md R166); `none` where a read returns BusError. -/
def passStream (s : State) : Job → Option (List Byte)
  | .compress => none
  | .digest => s.message
  | .keyprep => s.key
  | .hmac =>
    match s.pass with
    | .key => s.key
    | .inner => s.message.map fun m => ipadBlock (blockBytes s.kbufOperand) ++ m
    | .outer => some (opadBlock (blockBytes s.kbufOperand) ++ quadBytes s.innerHash)

/-- The working registers and the copy of the chaining value from ACC (41_compression_core.md R121). -/
def loadChain (s : State) : State :=
  { s with work := Work.ofQuad s.accOperand, chain := s.accOperand, stepIdx := 0, stage := .rounds }

/-- Block start: the block into XBUF (40_word_codec.md R105; COMPRESS has it there), then the chaining value. -/
def startBlock (s : State) : Option State :=
  if s.accKnown then
    match s.job with
    | some .compress => some (loadChain s)
    | some j => (passStream s j).map fun m => loadChain { s with xbuf := knownBlock (blockAt (pad m) s.block) }
    | none => none
  else none

/-- The end of a pass whose final state is `d`: the next pass, or the command's results. Where a region's bytes are
not MEM's at acceptance the results are those of the drawn bytes (20_memory.md R70, log 19), hence `none`. -/
def endPass (d : Quad) (s : State) : Job → Option State
  | .compress => none
  | .digest => if irregularMessage s then none else some (finishDigest (knownQuad d) s)
  | .keyprep =>
    if irregularKey s then none else some (finishKeyprep true (knownBlock (toBlock (extendKey (quadBytes d)))) s)
  | .hmac =>
    match s.pass with
    | .key => some (startPass .inner { s with kbuf := knownBlock (toBlock (extendKey (quadBytes d))) })
    | .inner => some (startPass .outer { s with innerHash := d })
    | .outer => if irregularKey s || irregularMessage s then none else some (finishDigest (knownQuad d) s)

/-- Feed-forward (41_compression_core.md R128), then the next block (R129), the next pass or completion. -/
def endBlock (s : State) : Option State :=
  let d := feedForward s.chain s.work
  match s.job with
  | some .compress => some (complete .none (freeEngine { s with acc := knownQuad d }))
  | some j =>
    (passStream s j).bind fun m =>
      if s.block + 1 < blockCount m.length then
        some { s with acc := knownQuad d, block := s.block + 1, stage := .blockStart }
      else endPass d s j
  | none => none

/-- How many blocks a step-level run of the accepted command compresses (70_reset_and_hazards.md R252): its round
steps are 64 times this. -/
def blocksToRun (s : State) : Nat :=
  let keyBlocks := if s.keyLen.toNat ≤ 64 then 0 else blockCount s.keyLen.toNat
  match s.job with
  | some .compress => 1
  | some .digest => blockCount s.msgLen.toNat
  | some .hmac => keyBlocks + blockCount (64 + s.msgLen.toNat) + 2
  | some .keyprep => keyBlocks
  | none => 0

end Sys2Proof.Machine
end

