-- ==== Sys2Proof/Machine/Step.lean ====
section
/-! DEFINITION. One step of the machine: the next input, or a move of the engine (00_scope.md R17, 44_commands.md R176), and where a word is placed so that the next step runs it. -/

namespace Sys2Proof.Machine

/-- The whole effect of the running command as one transition (44_commands.md R176, atomic). -/
def wholeEffect (s : State) : Outcome := exec (decodeCmd s.cmd) s

/-- A move of a step-level run, or the rest of the command as one transition. -/
def orWhole (move : Option State) (s : State) : Outcome :=
  match move with
  | some t => .next t
  | none => wholeEffect s

/-- The engine moves; an idle engine keeps its state (60_exceptions.md R229). -/
def engineMove (s : State) : Outcome :=
  match s.stage with
  | .idle => .next s
  | .accepted => wholeEffect s
  | .blockStart => orWhole (startBlock s) s
  | .rounds => exec (decodeStep s.stepIdx) s
  | .feedForward => orWhole (endBlock s) s

/-- The engine moves, starting an accepted command step by step. -/
def microMove (s : State) : Outcome :=
  match s.stage with
  | .accepted => orWhole (beginStepLevel s) s
  | .idle | .blockStart | .rounds | .feedForward => engineMove s

/-- One step. `wait` polls STATUS: while it reads BUSY the host stays there and the engine moves (30_encoding.md R91). -/
def step (s : State) : Host.Outcome State Fault Refusal :=
  match s.inputs with
  | [] => engineMove s
  | .engine :: rest => engineMove { s with inputs := rest }
  | .micro :: rest => microMove { s with inputs := rest }
  | .wait :: rest => if s.busy then engineMove s else .next (deliver s.statusWord { s with inputs := rest })
  | .access a :: rest => hostAccess a { s with inputs := rest }
  | .store a b :: rest => .next (storeByte a b { s with inputs := rest })
  | .reset :: rest => .next (resetBlock { s with inputs := rest })

/-- `s` with an instruction where the next step takes one (log 16). The block fetches nothing (10_state.md R35):
a CMD32 word is accepted as a CMD write would leave it (44_commands.md R175); a STEP6 index is STEP in the rounds of
a COMPRESS. No input stands before it. -/
def State.withFetchWord (s : State) (nbits w : Nat) : State :=
  match formOfBits nbits with
  | .cmd32 => { accept (BitVec.ofNat 32 w) s with inputs := [] }
  | .step6 => { accept 2 s with inputs := [], stage := .rounds, stepIdx := BitVec.ofNat 6 w }

end Sys2Proof.Machine
end

