-- ==== Sys2Proof/Safety.lean ====
section
/-! DEFINITION. What statements speak of: the machine's invariant, the frames (what a command or a round step leaves unchanged), and the relation between a register's content and a value read from it. -/

namespace Sys2Proof.Machine

/-- `w` is a reading of `r`: equal to it wherever the word is known (00_scope.md R14). -/
def Reading {n : Nat} (r : Vector Reg n) (w : Vector Word n) : Prop :=
  ∀ (j : Nat) (h : j < n) (v : Word), r[j] = .known v → w[j] = v

/-- What no command changes: CTRL, the address and length registers, the latched word, every byte of the source
memory, the platform's parameters, the coming inputs and the host's last read. -/
structure CommandFrame (s t : State) : Prop where
  ie : t.ie = s.ie
  msgAddr : t.msgAddr = s.msgAddr
  msgLen : t.msgLen = s.msgLen
  keyAddr : t.keyAddr = s.keyAddr
  keyLen : t.keyLen = s.keyLen
  cmd : t.cmd = s.cmd
  memory : ∀ a, Memory.read t.mem a = Memory.read s.mem a
  absent : t.absent = s.absent
  device : t.device = s.device
  mmioBase : t.mmioBase = s.mmioBase
  inputs : t.inputs = s.inputs
  rdata : t.rdata = s.rdata

/-- The engine-internal data registers are unchanged. -/
structure EngineKept (s t : State) : Prop where
  work : t.work = s.work
  chain : t.chain = s.chain
  innerHash : t.innerHash = s.innerHash

/-- Every data register is unchanged: "No register other than STATUS changes" (60_exceptions.md R217). -/
structure DataKept (s t : State) : Prop where
  acc : t.acc = s.acc
  digest : t.digest = s.digest
  xbuf : t.xbuf = s.xbuf
  kbuf : t.kbuf = s.kbuf
  engine : EngineKept s t

/-- The command has completed with error code `e`: PHASE idle, BUSY = 0, DONE = 1, ERR = 1 exactly for an error,
ECODE = the code, OVR as before (44_commands.md R177, 10_state.md R25, R26). -/
structure CompletedWith (e : ErrCode) (s t : State) : Prop where
  stage : t.stage = .idle
  done : t.status.done = true
  err : t.status.err = decide (e ≠ .none)
  ecode : t.status.ecode = e
  ovr : t.status.ovr = s.status.ovr

/-- What a round step leaves unchanged: everything but the working registers, STEP, the place in the block and the
draw counter. -/
structure RoundFrame (s t : State) : Prop where
  command : CommandFrame s t
  status : t.status = s.status
  acc : t.acc = s.acc
  digest : t.digest = s.digest
  xbuf : t.xbuf = s.xbuf
  kbuf : t.kbuf = s.kbuf
  chain : t.chain = s.chain
  innerHash : t.innerHash = s.innerHash
  pass : t.pass = s.pass
  block : t.block = s.block
  racing : t.racing = s.racing

/-- Source address `a` is plain memory and nothing stored to it while BUSY: its byte is MEM's (20_memory.md R68, R70). -/
def PlainByte (s : State) (a : Nat) : Prop :=
  (∀ c ∈ s.racing, c.1 ≠ a) ∧ ∀ r ∈ s.device, r.has a = false

/-- `m` is a byte string the engine may read from a .. a+n-1: MEM's byte wherever the byte is plain (20_memory.md R70). -/
def SourceBytes (s : State) (a n : Nat) (m : List Byte) : Prop :=
  m.length = n ∧ ∀ i, i < n → PlainByte s (a + i) → m[i]? = some (Memory.read s.mem (a + i))

/-- No address of a .. a+n-1 has read side effects (20_memory.md R68). -/
def NoSideEffects (s : State) (a n : Nat) : Prop := ∀ i, i < n → ∀ r ∈ s.device, r.has (a + i) = false

/-- BUS_OK holds on a .. a+n-1 (20_memory.md R61). -/
def BusOkOn (s : State) (a n : Nat) : Prop := ∀ i, i < n → s.busOk (a + i) = true

/-- The two states give the engine the same bytes from a .. a+n-1: the same BUS_OK, the same value of each byte
(20_memory.md R70), and the same addresses with read side effects (R68). -/
structure SameRegion (s s' : State) (a n : Nat) : Prop where
  busOk : ∀ i, i < n → s'.busOk (a + i) = s.busOk (a + i)
  byte : ∀ i, i < n → s'.sourceByte (a + i) = s.sourceByte (a + i)
  device : ∀ i, i < n → s'.device.any (fun r => r.has (a + i)) = s.device.any (fun r => r.has (a + i))

/-- The message operand is the same: MSG_ADDR, MSG_LEN and the bytes of the region. -/
structure SameMessage (s s' : State) : Prop where
  addr : s'.msgAddr = s.msgAddr
  len : s'.msgLen = s.msgLen
  region : SameRegion s s' s.msgAddr.toNat s.msgLen.toNat

/-- The key operand is the same: KEY_ADDR, KEY_LEN and the bytes of the region. -/
structure SameKey (s s' : State) : Prop where
  addr : s'.keyAddr = s.keyAddr
  len : s'.keyLen = s.keyLen
  region : SameRegion s s' s.keyAddr.toNat s.keyLen.toNat

/-- The next input is a host write of `v` to window register `r`. -/
def WritesReg (s : State) (r : WindowReg) (v : Word) (rest : List Input) : Prop :=
  ∃ addr, selectReg s.mmioBase 4 addr = some r ∧ s.inputs = .access (.write 4 addr v) :: rest

/-- The next input is a host read of window register `r`. -/
def ReadsReg (s : State) (r : WindowReg) (rest : List Input) : Prop :=
  ∃ addr, selectReg s.mmioBase 4 addr = some r ∧ s.inputs = .access (.read 4 addr) :: rest

/-- A register whose write is dropped while BUSY: CMD and the data registers (10_state.md R39). -/
def WindowReg.guarded : WindowReg → Bool
  | .cmd | .msgAddr | .msgLen | .keyAddr | .keyLen => true
  | .acc _ | .xbuf _ | .kbuf _ => true
  | .status | .ctrl | .digest _ | .reserved => false

/-- A register that is read as any value while BUSY (10_state.md R38). -/
def WindowReg.working : WindowReg → Bool
  | .acc _ | .digest _ | .xbuf _ | .kbuf _ => true
  | .cmd | .status | .ctrl | .msgAddr | .msgLen | .keyAddr | .keyLen | .reserved => false

/-- The invariant every step keeps. -/
structure Inv (s : State) : Prop where
  /-- The source memory is in canonical form. -/
  memory : Memory.wf s.mem = true
  /-- "ECODE is never nonzero while ERR is 0" (10_state.md R25), and an ERR has a code. -/
  errCode : s.status.err = true ↔ s.status.ecode ≠ .none
  /-- While BUSY, DONE, ERR and ECODE are 0 (10_state.md R24, R25). -/
  busyClear : s.busy = true → s.status.done = false ∧ s.status.err = false
  /-- An idle engine stands at the start: no races, pass 0, block 0. The model's own choice (logs 4, 9, 23): the spec
  gives no pass number and no block index between commands, and leaves both open after reset (R241). -/
  idleStart : s.stage = .idle → s.racing = [] ∧ s.pass = .key ∧ s.block = 0
  /-- STEP is 0 outside the rounds of a block (10_state.md R35: it "then returns to 0"). -/
  stepOutside : s.stage ≠ .rounds → s.stepIdx = 0
  /-- Within a step-level run the command uses the datapath and ACC is a known chaining value. -/
  runs : (s.stage = .blockStart ∨ s.stage = .rounds ∨ s.stage = .feedForward) →
    (s.job.isSome = true ∧ ∃ q, s.acc = knownQuad q)
  /-- A step-level COMPRESS has its block in XBUF before it starts. -/
  compressBlock : s.stage = .blockStart → s.job = some .compress → ∃ x, s.xbuf = knownBlock x
  /-- In the rounds: the copy of the chaining value is ACC, and the working registers are those of the first STEP
  steps on the block in XBUF (41_compression_core.md R121, R126). -/
  inRounds : s.stage = .rounds →
    ∃ x, s.xbuf = knownBlock x ∧ s.acc = knownQuad s.chain ∧ s.work = workAfter s.chain x s.stepIdx.toNat
  /-- Before the feed-forward: all 64 steps are done. -/
  roundsDone : s.stage = .feedForward →
    ∃ x, s.xbuf = knownBlock x ∧ s.acc = knownQuad s.chain ∧ s.work = workAfter s.chain x 64

end Sys2Proof.Machine
end

