-- ==== Sys2Proof/Certificates/Slice0/Obligations.lean ====
section
/-! DEFINITION. The statements for the provers, one def Obligations.<Name> : Prop each; OBLIGATIONS.json lists them with the rules they formalise. -/

open Sys2Proof
open Sys2Proof.Machine

/-! ### Encoding -/

/-- Decoding an encoded well-formed instruction gives it back: no bit of an encoding is dropped (30_encoding.md). -/
def Obligations.DecodeOfEncode : Prop := ∀ i : Instr, WellFormed i = true → decode (encode i) = i

/-- Every CMD word and every step index decodes to one well-formed instruction whose encoding it is
(30_encoding.md, sections 2 and 3). -/
def Obligations.EncodeOfDecode : Prop :=
  (∀ w : Word, WellFormed (decodeCmd w) = true ∧ encode (decodeCmd w) = .cmd32 w) ∧
  ∀ i : BitVec 6, WellFormed (decodeStep i) = true ∧ encode (decodeStep i) = .step6 i

/-- Words of the opcode map and of the step map decode to the instruction they stand for (30_encoding.md, sections 2
and 3). -/
def Obligations.WordsOfTheTables : Prop :=
  decodeTableWord 32 0x00000000 = some .nop ∧ decodeTableWord 32 0x00000001 = some .init ∧
  decodeTableWord 32 0x00000002 = some .compress ∧ decodeTableWord 32 0x00000003 = some .digest ∧
  decodeTableWord 32 0x00000004 = some .hmac ∧ decodeTableWord 32 0x00000005 = some .keyprep ∧
  decodeTableWord 32 0x00000006 = some .ipad ∧ decodeTableWord 32 0x00000007 = some .opad ∧
  decodeTableWord 32 0x00000008 = some (.illegalOp 0) ∧ decodeTableWord 32 0x0000000F = some (.illegalOp 7) ∧
  decodeTableWord 32 0x00000013 = some (.illegalRsv 1 3) ∧
  decodeTableWord 8 0x00 = some (.ff 0) ∧ decodeTableWord 8 0x1F = some (.gg 15) ∧
  decodeTableWord 8 0x25 = some (.hh 5) ∧ decodeTableWord 8 0x3F = some (.ii 15) ∧
  decodeTableWord 8 0x40 = none

/-- A word placed where the next step takes an instruction is run by that step. The placement is the model's
(DESIGN CHOICE, log 16). -/
def Obligations.PlacedWordRuns : Prop :=
  ∀ (s : State) (nbits w : Nat) (i : Instr), decodeTableWord nbits w = some i →
    step (s.withFetchWord nbits w) = exec i (s.withFetchWord nbits w)

/-- A step runs the decoded instruction: the accepted command's, or in the rounds of a block the one at STEP; with
nothing before it in the inputs or with an engine move at their head, which is then used up. -/
def Obligations.StepRunsTheDecodedInstruction : Prop :=
  (∀ s : State, s.inputs = [] →
    (s.stage = .accepted → step s = exec (decodeCmd s.cmd) s) ∧
    (s.stage = .rounds → step s = exec (decodeStep s.stepIdx) s)) ∧
  ∀ (s : State) (rest : List Input), s.inputs = .engine :: rest →
    (s.stage = .accepted → step s = exec (decodeCmd s.cmd) { s with inputs := rest }) ∧
    (s.stage = .rounds → step s = exec (decodeStep s.stepIdx) { s with inputs := rest })

/-! ### The commands: each completes, with the effect of its rule and nothing else -/

/-- NOP (R180): it completes with DONE = 1 and ERR = 0, keeps OVR, raises irq if IE = 1, and changes nothing else. -/
def Obligations.NopCompletesAndChangesNothingElse : Prop :=
  decodeCmd 0x00000000 = .nop ∧
  ∀ s : State, ∃ t, exec .nop s = .next t ∧ CompletedWith .none s t ∧
    t.statusWord = (s.statusWord &&& 0x8) ||| 0x2 ∧ t.irq = s.ie ∧ CommandFrame s t ∧ DataKept s t

/-- INIT (44_commands.md, section 2): ACC becomes IV; XBUF, KBUF, DIGEST and the rest are unchanged. That the engine's
internal registers are unchanged is the model's choice (DEDUCED, log 10). -/
def Obligations.InitLoadsIv : Prop :=
  decodeCmd 0x00000001 = .init ∧
  ∀ s : State, ∃ t, exec .init s = .next t ∧ CompletedWith .none s t ∧
    t.acc = #v[.known 0x67452301, .known 0xEFCDAB89, .known 0x98BADCFE, .known 0x10325476] ∧
    t.digest = s.digest ∧ t.xbuf = s.xbuf ∧ t.kbuf = s.kbuf ∧ EngineKept s t ∧ CommandFrame s t

/-- COMPRESS (R182): ACC becomes Compress of one reading of ACC and of XBUF, whatever they hold; XBUF, KBUF and DIGEST
are unchanged. -/
def Obligations.CompressUpdatesAcc : Prop :=
  decodeCmd 0x00000002 = .compress ∧
  ∀ s : State, ∃ (t : State) (q : Quad) (x : Block), exec .compress s = .next t ∧
    Reading s.acc q ∧ Reading s.xbuf x ∧ t.acc = knownQuad (compress q x) ∧
    t.xbuf = s.xbuf ∧ t.kbuf = s.kbuf ∧ t.digest = s.digest ∧ CompletedWith .none s t ∧ CommandFrame s t

/-- DIGEST (R183): the checks in their order, BUS_ERR, and otherwise the digest of the message bytes in ACC and DIGEST
with XBUF any value; KBUF is unchanged. The message bytes are MEM's wherever they did not change while BUSY; the digest
is stated where no address of the region has read side effects. -/
def Obligations.DigestFollowsItsRule : Prop :=
  decodeCmd 0x00000003 = .digest ∧
  ∀ s : State, ∃ t, exec .digest s = .next t ∧ CommandFrame s t ∧ t.kbuf = s.kbuf ∧
    let a := s.msgAddr.toNat
    let n := s.msgLen.toNat
    if 2 ^ 29 ≤ n then CompletedWith .tooLarge s t ∧ DataKept s t
    else if 2 ^ 32 < a + n then CompletedWith .addrRange s t ∧ DataKept s t
    else
      (¬ BusOkOn s a n → CompletedWith .busErr s t ∧ t.digest = s.digest ∧ t.acc = anyQuad ∧ t.xbuf = anyBlock) ∧
      (BusOkOn s a n → CompletedWith .none s t ∧ t.acc = t.digest ∧ t.xbuf = anyBlock ∧
        ∃ m, SourceBytes s a n m ∧ (NoSideEffects s a n → t.digest = knownQuad (digestWords m)))

/-- HMAC (R184): the checks in their order, BUS_ERR, and otherwise K0 in KBUF and the HMAC words in ACC and DIGEST with
XBUF any value. Bytes as in DigestFollowsItsRule. -/
def Obligations.HmacFollowsItsRule : Prop :=
  decodeCmd 0x00000004 = .hmac ∧
  ∀ s : State, ∃ t, exec .hmac s = .next t ∧ CommandFrame s t ∧
    let ka := s.keyAddr.toNat
    let kl := s.keyLen.toNat
    let a := s.msgAddr.toNat
    let n := s.msgLen.toNat
    if 2 ^ 29 ≤ kl then CompletedWith .tooLarge s t ∧ DataKept s t
    else if 2 ^ 32 < ka + kl then CompletedWith .addrRange s t ∧ DataKept s t
    else if 2 ^ 29 ≤ 64 + n then CompletedWith .tooLarge s t ∧ DataKept s t
    else if 2 ^ 32 < a + n then CompletedWith .addrRange s t ∧ DataKept s t
    else
      (¬ (BusOkOn s ka kl ∧ BusOkOn s a n) → CompletedWith .busErr s t ∧ t.digest = s.digest ∧
        t.acc = anyQuad ∧ t.xbuf = anyBlock ∧ t.kbuf = anyBlock) ∧
      (BusOkOn s ka kl → BusOkOn s a n → CompletedWith .none s t ∧ t.acc = t.digest ∧ t.xbuf = anyBlock ∧
        ∃ k m, SourceBytes s ka kl k ∧ SourceBytes s a n m ∧
          (NoSideEffects s ka kl → t.kbuf = knownBlock (toBlock (normKey k))) ∧
          (NoSideEffects s ka kl → NoSideEffects s a n → t.digest = knownQuad (hmacWords k m)))

/-- KEYPREP (R185): the checks in their order, BUS_ERR, and otherwise K0 in KBUF; ACC and XBUF are unchanged for a key of
at most 64 bytes and any value for a longer one; DIGEST is unchanged. Bytes as in DigestFollowsItsRule. The model's own
choices: that BUS_ERR leaves any value in ACC and XBUF also for a key of at most 64 bytes (DEDUCED, log 11), and that a
short key leaves the engine's internal registers as they are (DEDUCED, log 10). -/
def Obligations.KeyprepFollowsItsRule : Prop :=
  decodeCmd 0x00000005 = .keyprep ∧
  ∀ s : State, ∃ t, exec .keyprep s = .next t ∧ CommandFrame s t ∧ t.digest = s.digest ∧
    let ka := s.keyAddr.toNat
    let kl := s.keyLen.toNat
    if 2 ^ 29 ≤ kl then CompletedWith .tooLarge s t ∧ DataKept s t
    else if 2 ^ 32 < ka + kl then CompletedWith .addrRange s t ∧ DataKept s t
    else
      (¬ BusOkOn s ka kl → CompletedWith .busErr s t ∧ t.acc = anyQuad ∧ t.xbuf = anyBlock ∧ t.kbuf = anyBlock) ∧
      (BusOkOn s ka kl → CompletedWith .none s t ∧
        (if kl ≤ 64 then t.acc = s.acc ∧ t.xbuf = s.xbuf ∧ EngineKept s t else t.acc = anyQuad ∧ t.xbuf = anyBlock) ∧
        ∃ k, SourceBytes s ka kl k ∧ (NoSideEffects s ka kl → t.kbuf = knownBlock (toBlock (normKey k))))

/-- IPAD (44_commands.md, section 2): XBUF[j] becomes a reading of KBUF[j] XOR 0x36363636; nothing else changes. That the
engine's internal registers are unchanged is the model's choice (DEDUCED, log 10). -/
def Obligations.IpadXorsKbufIntoXbuf : Prop :=
  decodeCmd 0x00000006 = .ipad ∧
  ∀ s : State, ∃ (t : State) (k : Block), exec .ipad s = .next t ∧ Reading s.kbuf k ∧
    (∀ j (h : j < 16), t.xbuf[j] = .known (k[j] ^^^ 0x36363636)) ∧
    t.acc = s.acc ∧ t.kbuf = s.kbuf ∧ t.digest = s.digest ∧ EngineKept s t ∧ CompletedWith .none s t ∧ CommandFrame s t

/-- OPAD (44_commands.md, section 2): XBUF[j] becomes a reading of KBUF[j] XOR 0x5C5C5C5C; nothing else changes. That the
engine's internal registers are unchanged is the model's choice (DEDUCED, log 10). -/
def Obligations.OpadXorsKbufIntoXbuf : Prop :=
  decodeCmd 0x00000007 = .opad ∧
  ∀ s : State, ∃ (t : State) (k : Block), exec .opad s = .next t ∧ Reading s.kbuf k ∧
    (∀ j (h : j < 16), t.xbuf[j] = .known (k[j] ^^^ 0x5C5C5C5C)) ∧
    t.acc = s.acc ∧ t.kbuf = s.kbuf ∧ t.digest = s.digest ∧ EngineKept s t ∧ CompletedWith .none s t ∧ CommandFrame s t

/-- Reserved command words (R188): every word with OP in 8..15 or RSV not 0 decodes to one of the two illegal
instructions, and those end with DONE = 1, ERR = 1, ECODE = 1 and change nothing but STATUS. -/
def Obligations.ReservedWordsReportIllegalCmd : Prop :=
  (∀ w : Word, 8 ≤ w.toNat % 16 ∨ w.toNat / 16 ≠ 0 →
    (∃ low, decodeCmd w = .illegalOp low) ∨ ∃ rsv op, decodeCmd w = .illegalRsv rsv op) ∧
  ∀ (i : Instr) (s : State), ((∃ low, i = .illegalOp low) ∨ ∃ rsv op, i = .illegalRsv rsv op) →
    ∃ t, exec i s = .next t ∧ CompletedWith .illegalCmd s t ∧
      t.statusWord = (s.statusWord &&& 0x8) ||| 0x16 ∧ CommandFrame s t ∧ DataKept s t

/-- State after an error (60_exceptions.md, section 1). ILLEGAL_CMD, TOO_LARGE and ADDR_RANGE change no register but STATUS and read no source
byte; BUS_ERR keeps DIGEST and leaves any value in ACC, XBUF and, for HMAC and KEYPREP, KBUF; STATUS ends with BUSY = 0,
DONE = 1, ERR = 1 and the code. That KEYPREP's list holds whatever KEY_LEN, although a key of at most 64 bytes writes only
KBUF on success, is the model's reading of R217's list (DEDUCED, log 11). -/
def Obligations.StateAfterAnError : Prop :=
  ∀ (w : Word) (s t : State), exec (decodeCmd w) s = .next t → t.status.ecode ≠ .none →
    CompletedWith t.status.ecode s t ∧ CommandFrame s t ∧ t.digest = s.digest ∧
    (t.status.ecode ≠ .busErr → DataKept s t ∧
      ∀ mem absent device, exec (decodeCmd w) { s with mem := mem, absent := absent, device := device } =
        .next { t with mem := mem, absent := absent, device := device }) ∧
    (t.status.ecode = .busErr → t.acc = anyQuad ∧ t.xbuf = anyBlock ∧
      (decodeCmd w = .digest ∧ t.kbuf = s.kbuf ∨ (decodeCmd w = .hmac ∨ decodeCmd w = .keyprep) ∧ t.kbuf = anyBlock))

/-- No instruction stops the machine: exec answers a next state for every instruction in every state
(60_exceptions.md, section 1: an error is a completion). -/
def Obligations.EveryInstructionAnswersANextState : Prop := ∀ (i : Instr) (s : State), ∃ t, exec i s = .next t

/-- The results of DIGEST, KEYPREP and HMAC depend on the command's own operand registers and the bytes of its own
regions alone: two states that agree on these give the same error code and, without an error, the same DIGEST and ACC
(DIGEST, HMAC) and the same KBUF (HMAC, KEYPREP), whatever else differs (44_commands.md, sections 1 and 2). -/
def Obligations.ResultsDependOnOperandsAlone : Prop :=
  (∀ s s' t t' : State, SameMessage s s' → exec .digest s = .next t → exec .digest s' = .next t' →
    t'.status.ecode = t.status.ecode ∧ (t.status.ecode = .none → t'.digest = t.digest ∧ t'.acc = t.acc)) ∧
  (∀ s s' t t' : State, SameKey s s' → exec .keyprep s = .next t → exec .keyprep s' = .next t' →
    t'.status.ecode = t.status.ecode ∧ (t.status.ecode = .none → t'.kbuf = t.kbuf)) ∧
  ∀ s s' t t' : State, SameKey s s' → SameMessage s s' → exec .hmac s = .next t → exec .hmac s' = .next t' →
    t'.status.ecode = t.status.ecode ∧
    (t.status.ecode = .none → t'.digest = t.digest ∧ t'.acc = t.acc ∧ t'.kbuf = t.kbuf)

/-! ### The round steps. The operand rotation, K and S are marked "from general knowledge, not in source" by the spec. -/

/-- FF, step i = j: (WA, WB, WC, WD) becomes (WD, WB + rotl(WA + F + X[j] + T[i], S), WB, WC) with
F = (WB & WC) | (~WB & WD) and X[j] a reading of XBUF[j] (41_compression_core.md, section 3). -/
def Obligations.FfStepsTheWorkingRegisters : Prop :=
  ∀ (j : BitVec 4) (s : State), ∃ (t : State) (x : Word), exec (.ff j) s = .next t ∧
    (∀ v, s.xbuf[j.toNat] = .known v → x = v) ∧
    t.work = ⟨s.work.wd,
      s.work.wb + (s.work.wa + ((s.work.wb &&& s.work.wc) ||| (~~~s.work.wb &&& s.work.wd)) + x
        + roundConst (0#2 ++ j)).rotateLeft ([7, 12, 17, 22].getD (j.toNat % 4) 0),
      s.work.wb, s.work.wc⟩ ∧
    t.stepIdx = (0#2 ++ j) + 1 ∧ t.stage = s.stage ∧ RoundFrame s t

/-- GG, step i = 16 + j: as FF with G = (WB & WD) | (WC & ~WD) and X[(1 + 5j) mod 16] (41_compression_core.md,
section 3). -/
def Obligations.GgStepsTheWorkingRegisters : Prop :=
  ∀ (j : BitVec 4) (s : State), ∃ (t : State) (x : Word), exec (.gg j) s = .next t ∧
    (∀ v, s.xbuf[(1 + 5 * j.toNat) % 16] = .known v → x = v) ∧
    t.work = ⟨s.work.wd,
      s.work.wb + (s.work.wa + ((s.work.wb &&& s.work.wd) ||| (s.work.wc &&& ~~~s.work.wd)) + x
        + roundConst (1#2 ++ j)).rotateLeft ([5, 9, 14, 20].getD (j.toNat % 4) 0),
      s.work.wb, s.work.wc⟩ ∧
    t.stepIdx = (1#2 ++ j) + 1 ∧ t.stage = s.stage ∧ RoundFrame s t

/-- HH, step i = 32 + j: as FF with H = WB ^ WC ^ WD and X[(5 + 3j) mod 16] (41_compression_core.md, section 3). -/
def Obligations.HhStepsTheWorkingRegisters : Prop :=
  ∀ (j : BitVec 4) (s : State), ∃ (t : State) (x : Word), exec (.hh j) s = .next t ∧
    (∀ v, s.xbuf[(5 + 3 * j.toNat) % 16] = .known v → x = v) ∧
    t.work = ⟨s.work.wd,
      s.work.wb + (s.work.wa + (s.work.wb ^^^ s.work.wc ^^^ s.work.wd) + x
        + roundConst (2#2 ++ j)).rotateLeft ([4, 11, 16, 23].getD (j.toNat % 4) 0),
      s.work.wb, s.work.wc⟩ ∧
    t.stepIdx = (2#2 ++ j) + 1 ∧ t.stage = s.stage ∧ RoundFrame s t

/-- II, step i = 48 + j: as FF with I = WC ^ (WB | ~WD) and X[7j mod 16]; step 63 ends the rounds of a block
(41_compression_core.md, section 3). -/
def Obligations.IiStepsTheWorkingRegisters : Prop :=
  ∀ (j : BitVec 4) (s : State), ∃ (t : State) (x : Word), exec (.ii j) s = .next t ∧
    (∀ v, s.xbuf[(7 * j.toNat) % 16] = .known v → x = v) ∧
    t.work = ⟨s.work.wd,
      s.work.wb + (s.work.wa + (s.work.wc ^^^ (s.work.wb ||| ~~~s.work.wd)) + x
        + roundConst (3#2 ++ j)).rotateLeft ([6, 10, 15, 21].getD (j.toNat % 4) 0),
      s.work.wb, s.work.wc⟩ ∧
    t.stepIdx = (3#2 ++ j) + 1 ∧ t.stage = (if s.stage = .rounds ∧ j = 15 then .feedForward else s.stage) ∧
    RoundFrame s t

/-! ### The lifecycle and the register window -/

/-- Acceptance (R175): a CMD write is dropped with OVR while BUSY, and otherwise accepted: BUSY = 1, DONE, ERR and ECODE
= 0, the word latched, irq low, nothing else changed (`racing`, the bytes stored to while BUSY, starts empty). -/
def Obligations.CmdWriteIsAcceptedOrDropped : Prop :=
  ∀ (s : State) (v : Word) (rest : List Input), WritesReg s .cmd v rest →
    ∃ t, step s = .next t ∧
      (s.busy = true → t = { s with inputs := rest, status := { s.status with ovr := true } }) ∧
      (s.busy = false → t.busy = true ∧ t.irq = false ∧
        t = { s with inputs := rest, stage := .accepted, status := ⟨false, false, s.status.ovr, .none⟩, cmd := v,
                     racing := [] })

/-- Writes while BUSY (R39): CMD and the data registers are unchanged and OVR is set; STATUS takes its write-1-to-clear
bits, after which (in a state of the invariant) only OVR and BUSY can be 1; CTRL takes effect; DIGEST and reserved
offsets ignore the write. -/
def Obligations.WritesWhileBusy : Prop :=
  ∀ (s : State) (r : WindowReg) (v : Word) (rest : List Input), s.busy = true → WritesReg s r v rest →
    ∃ t, step s = .next t ∧
      (r.guarded = true → t = { s with inputs := rest, status := { s.status with ovr := true } }) ∧
      (r = .status → t = { s with inputs := rest, status := t.status } ∧
        t.status.ovr = (s.status.ovr && !v.getLsbD 3) ∧ (Inv s → t.statusWord &&& 0xFFFFFFF6 = 0)) ∧
      (r = .ctrl → t = { s with inputs := rest, ie := v.getLsbD 0 }) ∧
      ((∃ j, r = .digest j) ∨ r = .reserved → t = { s with inputs := rest })

/-- Reads while BUSY (R38): STATUS, CTRL, MSG_* and KEY_* read their current values, CMD and reserved offsets read 0,
and ACC, DIGEST, XBUF and KBUF read a free value of a new draw, whatever they hold; while idle a known word reads its
value. -/
def Obligations.ReadsWhileBusyAndIdle : Prop :=
  ∀ (s : State) (r : WindowReg) (rest : List Input), ReadsReg s r rest →
    ∃ t, step s = .next t ∧ t = { s with inputs := rest, rdata := t.rdata, draws := t.draws } ∧
      (r = .status → t.rdata = s.statusWord) ∧ (r = .ctrl → t.rdata = 0#31 ++ BitVec.ofBool s.ie) ∧
      (r = .msgAddr → t.rdata = s.msgAddr) ∧ (r = .msgLen → t.rdata = s.msgLen) ∧
      (r = .keyAddr → t.rdata = s.keyAddr) ∧ (r = .keyLen → t.rdata = s.keyLen) ∧
      (r = .cmd ∨ r = .reserved → t.rdata = 0) ∧
      (r.working = true → s.busy = true → t.rdata = Config.drawWord s.draws 0 ∧ t.draws = s.draws + 1) ∧
      (s.busy = false → ∀ (j : Nat) (w : Word),
        (∀ h : j < 4, r = .acc ⟨j, h⟩ → s.acc[j] = .known w → t.rdata = w) ∧
        (∀ h : j < 4, r = .digest ⟨j, h⟩ → s.digest[j] = .known w → t.rdata = w) ∧
        (∀ h : j < 16, r = .xbuf ⟨j, h⟩ → s.xbuf[j] = .known w → t.rdata = w) ∧
        (∀ h : j < 16, r = .kbuf ⟨j, h⟩ → s.kbuf[j] = .known w → t.rdata = w))

/-- A data register written while idle is read back by the next access, every other register reads as before, and
STATUS is unchanged (10_state.md, sections 1 and 2). -/
def Obligations.IdleWriteIsReadBack : Prop :=
  ∀ (s : State) (r : WindowReg) (v : Word) (rest : List Input), s.busy = false → r.guarded = true → r ≠ .cmd →
    WritesReg s r v rest →
    ∃ t, step s = .next t ∧ (hostRead r t).rdata = v ∧ t.status = s.status ∧ t.stage = s.stage ∧
      ∀ r', r' ≠ r → (hostRead r' t).rdata = (hostRead r' s).rdata

/-- A write to CTRL, while BUSY and while idle, sets IE to its bit 0 and changes nothing else, and CTRL then reads that
bit; a write to DIGEST or to a reserved offset changes nothing at all (10_state.md, sections 1 to 3). -/
def Obligations.CtrlTakesBitZeroAndReadOnlyWritesAreIgnored : Prop :=
  (∀ (s : State) (v : Word) (rest : List Input), WritesReg s .ctrl v rest →
    ∃ t, step s = .next t ∧ t = { s with inputs := rest, ie := v.getLsbD 0 } ∧ t.ctrlWord = v &&& 1) ∧
  ∀ (s : State) (r : WindowReg) (v : Word) (rest : List Input), (r = .reserved ∨ ∃ j, r = .digest j) →
    WritesReg s r v rest → step s = .next { s with inputs := rest }

/-- A STATUS write clears DONE, ERR with ECODE, and OVR where its bit 1, 2 or 3 is 1, leaves them elsewhere, and changes
nothing else (10_state.md, section 1). -/
def Obligations.StatusIsWriteOneToClear : Prop :=
  ∀ (s : State) (v : Word) (rest : List Input), WritesReg s .status v rest →
    ∃ t, step s = .next t ∧ t = { s with inputs := rest, status := t.status } ∧
      t.status.done = (if v.getLsbD 1 then false else s.status.done) ∧
      t.status.err = (if v.getLsbD 2 then false else s.status.err) ∧
      t.status.ecode = (if v.getLsbD 2 then .none else s.status.ecode) ∧
      t.status.ovr = (if v.getLsbD 3 then false else s.status.ovr) ∧
      (v = 0x0000000E → s.busy = false → t.statusWord = 0)

/-- OVR (R26): a write dropped because the engine is BUSY sets it and no other step does; a write of 1 to STATUS bit 3
clears it, and only that or the reset input does; no effect of the engine depends on it. -/
def Obligations.OvrIsSticky : Prop :=
  (∀ (s : State) (r : WindowReg) (v : Word) (rest : List Input), s.busy = true → r.guarded = true →
    WritesReg s r v rest → ∃ t, step s = .next t ∧ t.status.ovr = true) ∧
  (∀ (s t : State), step s = .next t → s.status.ovr = false → t.status.ovr = true →
    s.busy = true ∧ ∃ r v rest, r.guarded = true ∧ WritesReg s r v rest) ∧
  (∀ (s : State) (v : Word) (rest : List Input), WritesReg s .status v rest → v.getLsbD 3 = true →
    ∃ t, step s = .next t ∧ t.status.ovr = false) ∧
  (∀ (s t : State), step s = .next t → s.status.ovr = true → t.status.ovr = false →
    (∃ v rest, WritesReg s .status v rest ∧ v.getLsbD 3 = true) ∨ ∃ rest, s.inputs = .reset :: rest) ∧
  ∀ (b : Bool) (s t : State),
    (∀ i, exec i s = .next t →
      exec i { s with status := { s.status with ovr := b } } = .next { t with status := { t.status with ovr := b } }) ∧
    (engineMove s = .next t → engineMove { s with status := { s.status with ovr := b } } =
      .next { t with status := { t.status with ovr := b } }) ∧
    (microMove s = .next t → microMove { s with status := { s.status with ovr := b } } =
      .next { t with status := { t.status with ovr := b } })

/-- A register access that is not 32-bit, not aligned or not inside the window is refused (20_memory.md, section 3). That
one outside the window is refused like the others is the model's choice (DEDUCED, log 13). -/
def Obligations.OtherAccessesAreRefused : Prop :=
  ∀ (s : State) (width addr : Nat) (v : Word) (rest : List Input),
    (width ≠ 4 ∨ addr < s.mmioBase ∨ s.mmioBase + 256 ≤ addr ∨ (addr - s.mmioBase) % 4 ≠ 0) →
    (s.inputs = .access (.read width addr) :: rest ∨ s.inputs = .access (.write width addr v) :: rest) →
    step s = .refused .badAccess

/-- The register an aligned window offset selects (R92). -/
def Obligations.WindowOffsetsSelectRegisters : Prop :=
  ∀ base : Nat,
    selectReg base 4 (base + 0x000) = some .cmd ∧ selectReg base 4 (base + 0x004) = some .status ∧
    selectReg base 4 (base + 0x008) = some .ctrl ∧
    selectReg base 4 (base + 0x010) = some .msgAddr ∧ selectReg base 4 (base + 0x014) = some .msgLen ∧
    selectReg base 4 (base + 0x018) = some .keyAddr ∧ selectReg base 4 (base + 0x01C) = some .keyLen ∧
    (∀ o, o < 0x100 → o % 4 = 0 →
      (∀ _ : 0x020 ≤ o ∧ o ≤ 0x02C, ∃ h, selectReg base 4 (base + o) = some (.acc ⟨(o - 0x020) / 4, h⟩)) ∧
      (∀ _ : 0x030 ≤ o ∧ o ≤ 0x03C, ∃ h, selectReg base 4 (base + o) = some (.digest ⟨(o - 0x030) / 4, h⟩)) ∧
      (∀ _ : 0x040 ≤ o ∧ o ≤ 0x07C, ∃ h, selectReg base 4 (base + o) = some (.xbuf ⟨(o - 0x040) / 4, h⟩)) ∧
      (∀ _ : 0x080 ≤ o ∧ o ≤ 0x0BC, ∃ h, selectReg base 4 (base + o) = some (.kbuf ⟨(o - 0x080) / 4, h⟩)) ∧
      (o = 0x00C ∨ 0x0C0 ≤ o → selectReg base 4 (base + o) = some .reserved)) ∧
    ∀ o, o < 0x100 → o % 4 ≠ 0 → selectReg base 4 (base + o) = none

/-- irq (R40): it is IE AND DONE, 0 at reset; a command's completion makes it IE; it falls when the host clears DONE,
clears IE or issues a new command. -/
def Obligations.IrqIsIeAndDone : Prop :=
  (∀ s : State, s.irq = (s.ctrlWord.getLsbD 0 && s.statusWord.getLsbD 1)) ∧ State.reset.irq = false ∧
  (∀ (w : Word) (s t : State), exec (decodeCmd w) s = .next t → t.irq = s.ie) ∧
  ∀ (s : State) (r : WindowReg) (v : Word) (rest : List Input), WritesReg s r v rest →
    (r = .status ∧ v.getLsbD 1 = true ∨ r = .ctrl ∧ v.getLsbD 0 = false ∨ r = .cmd ∧ s.busy = false) →
    ∃ t, step s = .next t ∧ t.irq = false

/-- The reset values (R42). WA to WD are unspecified there: nothing is said of them. -/
def Obligations.ResetValues : Prop :=
  State.reset.statusWord = 0 ∧ State.reset.ctrlWord = 0 ∧ State.reset.msgAddr = 0 ∧ State.reset.msgLen = 0 ∧
  State.reset.keyAddr = 0 ∧ State.reset.keyLen = 0 ∧
  State.reset.acc = #v[.known 0x67452301, .known 0xEFCDAB89, .known 0x98BADCFE, .known 0x10325476] ∧
  State.reset.digest = Vector.replicate 4 (.known 0) ∧ State.reset.xbuf = Vector.replicate 16 (.known 0) ∧
  State.reset.kbuf = Vector.replicate 16 (.known 0) ∧ State.reset.stage = .idle ∧ State.reset.stepIdx = 0 ∧
  State.reset.irq = false

/-- The reset input (R240): every register at its reset value and DONE not set, whatever the engine was doing; the
source memory is untouched. -/
def Obligations.ResetInputRestoresResetValues : Prop :=
  ∀ (s : State) (rest : List Input), s.inputs = .reset :: rest →
    ∃ t, step s = .next t ∧ t.statusWord = 0 ∧ t.ctrlWord = 0 ∧ t.msgAddr = 0 ∧ t.msgLen = 0 ∧ t.keyAddr = 0 ∧
      t.keyLen = 0 ∧ t.acc = knownQuad #v[0x67452301, 0xEFCDAB89, 0x98BADCFE, 0x10325476] ∧
      t.digest = Vector.replicate 4 (.known 0) ∧ t.xbuf = Vector.replicate 16 (.known 0) ∧
      t.kbuf = Vector.replicate 16 (.known 0) ∧ t.stage = .idle ∧ t.stepIdx = 0 ∧ t.irq = false ∧
      t.racing = [] ∧ t.inputs = rest ∧ ∀ a, Memory.read t.mem a = Memory.read s.mem a

/-- An idle engine with nothing to do keeps its whole state (60_exceptions.md, section 3). -/
def Obligations.IdleEngineKeepsItsState : Prop :=
  ∀ s : State, s.inputs = [] → s.busy = false → step s = .next s

/-! ### Whole-machine rules -/

/-- DIGEST[0..3] changes only at the completion without error of a DIGEST or HMAC command, with ACC the same words, or at
the reset input (10_state.md, section 2). -/
def Obligations.OnlyDigestAndHmacWriteDigest : Prop :=
  ∀ s t : State, step s = .next t → t.digest ≠ s.digest →
    (s.busy = true ∧ (decodeCmd s.cmd = .digest ∨ decodeCmd s.cmd = .hmac) ∧ t.busy = false ∧
      t.status.done = true ∧ t.status.err = false ∧ t.acc = t.digest) ∨
    ∃ rest, s.inputs = .reset :: rest

/-- The engine never writes the source memory: a byte changes only at a host store to its address, to the stored value
(20_memory.md, section 1). The canonical form of the memory is a clause of the invariant. -/
def Obligations.OnlyHostStoresChangeMemory : Prop :=
  ∀ (s t : State) (a : Nat), Memory.wf s.mem = true → step s = .next t → Memory.read t.mem a ≠ Memory.read s.mem a →
    ∃ (addr : Word) (b : Byte) (rest : List Input),
      s.inputs = .store addr b :: rest ∧ addr.toNat = a ∧ Memory.read t.mem a = b

/-- A host store writes its byte and no other byte and no register (20_memory.md, section 5). While idle, a command that
reads the byte reads the stored one. While BUSY, the running command's byte there is the draw made at the first such
store, and its bytes elsewhere are unchanged. The model's own choices: the store is in the memory at once (PRESUMED,
log 18), and the draw is made once per address and command and kept in `racing` (DESIGN CHOICE, log 4). -/
def Obligations.HostStoreWritesOneByte : Prop :=
  ∀ (s : State) (a : Word) (b : Byte) (rest : List Input), Memory.wf s.mem = true → s.inputs = .store a b :: rest →
    ∃ t, step s = .next t ∧
      (∀ a', Memory.read t.mem a' = if a' = a.toNat then b else Memory.read s.mem a') ∧
      (s.busy = false → t = { s with inputs := rest, mem := t.mem } ∧
        (PlainByte s a.toNat → t.sourceByte a.toNat = b)) ∧
      (s.busy = true → t = { s with inputs := rest, mem := t.mem, racing := t.racing, draws := t.draws } ∧
        ¬ PlainByte t a.toNat ∧ (∀ a', a' ≠ a.toNat → (PlainByte t a' ↔ PlainByte s a')) ∧
        (PlainByte s a.toNat → t.sourceByte a.toNat = Config.drawByte s.draws a.toNat) ∧
        ((∃ c ∈ s.racing, c.1 = a.toNat) → t.sourceByte a.toNat = s.sourceByte a.toNat) ∧
        ∀ a', a' ≠ a.toNat → (∀ r ∈ s.device, r.has a' = false) → t.sourceByte a' = s.sourceByte a')

/-- The latched command does not change while BUSY: no two commands overlap (20_memory.md, section 5). -/
def Obligations.NoCommandReplacesARunningOne : Prop :=
  ∀ s t : State, step s = .next t → s.busy = true → t.cmd = s.cmd ∨ ∃ rest, s.inputs = .reset :: rest

/-- The invariant holds at reset. Its clause on the pass number and the block index holds by the model's choice of their
reset values (DESIGN CHOICE, logs 9 and 23): the spec leaves both unspecified after reset. -/
def Obligations.ResetMeetsTheInvariant : Prop := Inv State.reset

/-- Every step keeps the invariant: the memory's canonical form, ERR with its code, STATUS while BUSY, STEP outside the
rounds, and in the rounds WA to WD the first STEP steps of the block on the chaining value. The clause that an idle engine
has pass 0, block 0 and no races is the model's choice (DESIGN CHOICE, logs 4, 9, 22 and 23). -/
def Obligations.StepKeepsTheInvariant : Prop := ∀ s t : State, Inv s → step s = .next t → Inv t

/-- The two models of an execution agree: a step-level run of an accepted command (64 round steps a block, one a step)
ends in exactly the state of the command's effect taken as one transition, after 1 + 66 steps a block at most
(44_commands.md, section 1). The model's own choices it rests on: the engine's internal registers are free values after
both (log 10), pass and block are 0 after both (log 23), a run over raced or side-effecting bytes takes its results from
the whole effect (DEDUCED, log 19), and COMPRESS of any-value operands is not run step by step (DESIGN CHOICE, log 20). -/
def Obligations.StepLevelRunEqualsTheWholeEffect : Prop :=
  ∀ s : State, s.stage = .accepted → s.inputs = [] →
    Host.Core.run core (1 + 66 * blocksToRun s) { s with inputs := [.micro] } = exec (decodeCmd s.cmd) s

/-- Every command completes: from any BUSY state with no more inputs the machine reaches, in finitely many steps, an
idle state with DONE = 1 (70_reset_and_hazards.md, section 3). -/
def Obligations.EveryCommandCompletes : Prop :=
  ∀ s : State, s.busy = true → s.inputs = [] →
    ∃ (k : Nat) (t : State), Host.Core.run core k s = .next t ∧ t.busy = false ∧ t.status.done = true

/-! ### The compression core -/

/-- The round functions F (R111), G (R112), H (R113) and I (R114): the formulas, F and G bit by bit, and the rounds that
use them. -/
def Obligations.RoundFunctionsSelectBits : Prop :=
  (∀ b c d : Word,
    roundF b c d = (b &&& c) ||| (~~~b &&& d) ∧
    (∀ n, n < 32 → (roundF b c d).getLsbD n = if b.getLsbD n then c.getLsbD n else d.getLsbD n) ∧
    roundG b c d = (b &&& d) ||| (c &&& ~~~d) ∧
    (∀ n, n < 32 → (roundG b c d).getLsbD n = if d.getLsbD n then b.getLsbD n else c.getLsbD n) ∧
    roundH b c d = b ^^^ c ^^^ d ∧ roundI b c d = c ^^^ (b ||| ~~~d)) ∧
  ∀ j : BitVec 4, roundFn (0#2 ++ j) = roundF ∧ roundFn (1#2 ++ j) = roundG ∧ roundFn (2#2 ++ j) = roundH ∧
    roundFn (3#2 ++ j) = roundI

/-- The step primitive (R120): b + rotl(a + f + x + t, s), every addition mod 2^32, the rotation a rotation of the
32 bits. -/
def Obligations.CombineIsAddRotateAdd : Prop :=
  ∀ (f a b x t : Word) (s : Nat), 1 ≤ s → s ≤ 31 →
    (combine f a b x s t).toNat =
      (b.toNat + ((BitVec.ofNat 32 (a.toNat + f.toNat + x.toNat + t.toNat)).rotateLeft s).toNat) % 2 ^ 32

/-- The tables K and S follow the formulas of 41_compression_core.md, section 2 (marked "from general knowledge, not in
source" there), each round's K is a permutation of 0..15, and every S is in 4..23. -/
def Obligations.ScheduleFollowsTheFormulas : Prop :=
  (∀ j : BitVec 4,
    (wordIndex (0#2 ++ j)).val = j.toNat ∧ (wordIndex (1#2 ++ j)).val = (1 + 5 * j.toNat) % 16 ∧
    (wordIndex (2#2 ++ j)).val = (5 + 3 * j.toNat) % 16 ∧ (wordIndex (3#2 ++ j)).val = (7 * j.toNat) % 16) ∧
  (∀ j : BitVec 4,
    rotation (0#2 ++ j) = [7, 12, 17, 22].getD (j.toNat % 4) 0 ∧
    rotation (1#2 ++ j) = [5, 9, 14, 20].getD (j.toNat % 4) 0 ∧
    rotation (2#2 ++ j) = [4, 11, 16, 23].getD (j.toNat % 4) 0 ∧
    rotation (3#2 ++ j) = [6, 10, 15, 21].getD (j.toNat % 4) 0) ∧
  (∀ (r : BitVec 2) (k : Fin 16), ∃ j : BitVec 4, wordIndex (r ++ j) = k) ∧
  ∀ i : BitVec 6, 4 ≤ rotation i ∧ rotation i ≤ 23

/-- The named form of the steps: a, b, c, d hold the accumulators and step i writes a, d, c, b in turn
(41_compression_core.md, section 4). -/
def namedForm (q : Quad) (x : Block) : Nat → Work
  | 0 => Work.ofQuad q
  | n + 1 =>
    let w := namedForm q x n
    let i := BitVec.ofNat 6 n
    let new (a b c d : Word) : Word := combine (roundFn i b c d) a b x[wordIndex i] (rotation i) (roundConst i)
    match n % 4 with
    | 0 => { w with wa := new w.wa w.wb w.wc w.wd }
    | 1 => { w with wd := new w.wd w.wa w.wb w.wc }
    | 2 => { w with wc := new w.wc w.wd w.wa w.wb }
    | _ => { w with wb := new w.wb w.wc w.wd w.wa }

/-- The register form and the named form agree after every step, up to the rotation of the names; after step 63 they
are equal (41_compression_core.md, section 4; the named form is marked "from general knowledge, not in source"). -/
def Obligations.RegisterFormIsTheNamedForm : Prop :=
  ∀ (q : Quad) (x : Block) (n : Nat),
    let w := namedForm q x n
    workAfter q x n =
      match n % 4 with
      | 0 => w
      | 1 => ⟨w.wd, w.wa, w.wb, w.wc⟩
      | 2 => ⟨w.wc, w.wd, w.wa, w.wb⟩
      | _ => ⟨w.wb, w.wc, w.wd, w.wa⟩

/-! ### The codec, the padder, the digest engine and HMAC -/

/-- The codec's round trips (40_word_codec.md). -/
def Obligations.CodecRoundTrips : Prop :=
  (∀ s : List Byte, wordsToBytes (bytesToWords s) (8 * s.length) = some s) ∧
  (∀ w : List Word, (wordsToBytes w (32 * w.length)).map bytesToWords = some w) ∧
  ∀ s : List Byte, s.length % 4 ≠ 0 → bytesToWords s = bytesToWords (s ++ zeros (4 - s.length % 4))

/-- The codec places bit b of byte p at bit 8 (p mod 4) + b of word p div 4 (40_word_codec.md). -/
def Obligations.CodecPlacesEveryBit : Prop :=
  ∀ (s : List Byte) (p b : Nat) (hp : p < s.length), b < 8 →
    ∃ h : p / 4 < (bytesToWords s).length,
      (bytesToWords s)[p / 4].getLsbD (8 * (p % 4) + b) = s[p].getLsbD b

/-- The layout of a padded message: whole blocks, the message, 0x80, zeros to 56 mod 64, and the bit length in word 14
of the last block with word 15 zero (42_padder_digest.md, section 1). -/
def Obligations.PadLayout : Prop :=
  ∀ m : List Byte, m.length < 2 ^ 29 →
    (pad m).length = 64 * blockCount m.length ∧ (pad m).take m.length = m ∧ (pad m)[m.length]? = some 0x80 ∧
    (∀ i, m.length < i → i < 64 * blockCount m.length - 8 → (pad m)[i]? = some 0) ∧
    (m.length + 1 + padZeros m.length) % 64 = 56 ∧ padZeros m.length < 64 ∧
    (blockAt (pad m) (blockCount m.length - 1))[14] = BitVec.ofNat 32 (8 * m.length) ∧
    (blockAt (pad m) (blockCount m.length - 1))[15] = 0

/-- Pad is injective on messages shorter than 2^29 bytes (42_padder_digest.md, section 1). -/
def Obligations.PadIsInjective : Prop :=
  ∀ m m' : List Byte, m.length < 2 ^ 29 → m'.length < 2 ^ 29 → pad m = pad m' → m = m'

/-- The source's word-level Padder on `bytesToWords m`: the marker OR-ed in at bit L mod 32 of word L div 32, zero
words, the length at word 16 (NB-1) + 14 (42_padder_digest.md, section 1). -/
def wordPad (m : List Byte) : List Word :=
  let l := 8 * m.length
  let last := 16 * (blockCount m.length - 1)
  (List.range (16 * blockCount m.length)).map fun i =>
    if i = last + 14 then BitVec.ofNat 32 l
    else if i = last + 15 then 0
    else (bytesToWords m).getD i 0 ||| (if i = l / 32 then (0x80 : Word) <<< (l % 32) else 0)

/-- Padding bytes and then coding them, and coding bytes and then padding words, give the same words
(42_padder_digest.md, section 1). -/
def Obligations.WordLevelPadderIsTheBytePadder : Prop :=
  ∀ m : List Byte, m.length < 2 ^ 29 → bytesToWords (pad m) = wordPad m

/-- The empty message (R147): its block is 0x00000080 and zeros, its digest the known constant. -/
def Obligations.EmptyMessageDigest : Prop :=
  blockAt (pad []) 0 = #v[0x00000080, 0, 0, 0, 0, 0, 0, 0, 0, 0, 0, 0, 0, 0, 0, 0] ∧
  digestWords [] = compress iv (blockAt (pad []) 0) ∧
  digestBytes [] = [0xd4, 0x1d, 0x8c, 0xd9, 0x8f, 0x00, 0xb2, 0x04, 0xe9, 0x80, 0x09, 0x98, 0xec, 0xf8, 0x42, 0x7e]

/-- A digest pass over a 64-byte prefix and a stream: the first block is the prefix, and the rest continues from its
chaining value (42_padder_digest.md, section 2). -/
def Obligations.PrefixBlockThenStream : Prop :=
  ∀ p q : List Byte, p.length = 64 →
    digestWords (p ++ q) =
      (List.range (blockCount (64 + q.length) - 1)).foldl (fun acc b => compress acc (blockAt (pad (p ++ q)) (b + 1)))
        (compress iv (toBlock p))

/-- The pad blocks in word form: what IPAD and OPAD compute from K0's words is the pad block's words (43_hmac.md). -/
def Obligations.PadBlocksInWordForm : Prop :=
  ∀ k0 : List Byte, k0.length = 64 →
    toBlock (ipadBlock k0) = padWords 0x36363636 (toBlock k0) ∧ toBlock (opadBlock k0) = padWords 0x5C5C5C5C (toBlock k0)

/-- The outer pass has exactly two blocks, the second of them the inner digest, 0x80 and the length 640 (43_hmac.md). -/
def Obligations.OuterPassHasTwoBlocks : Prop :=
  ∀ (k0 : List Byte) (d : Quad), k0.length = 64 →
    (pad (opadBlock k0 ++ quadBytes d)).length = 128 ∧
    blockAt (pad (opadBlock k0 ++ quadBytes d)) 0 = toBlock (opadBlock k0) ∧
    blockAt (pad (opadBlock k0 ++ quadBytes d)) 1 =
      #v[d[0], d[1], d[2], d[3], 0x00000080, 0, 0, 0, 0, 0, 0, 0, 0, 0, 0x00000280, 0]

/-- HMAC with a key longer than 64 bytes equals HMAC with its digest as the key (43_hmac.md). -/
def Obligations.LongKeyEqualsItsDigest : Prop :=
  ∀ k m : List Byte, 64 < k.length → (digestBytes k).length = 16 ∧ hmacBytes k m = hmacBytes (digestBytes k) m
end

