-- ==== Sys2Proof/Laws/Codec.lean ====
section
/-! SUPPORT. The codec bit by bit and byte by byte, the lengths of what the codec, the padder and key normalisation give, and every byte of a padded message. -/

namespace Sys2Proof.Machine

theorem byteAt_lt {s : List Byte} {p : Nat} (h : p < s.length) : byteAt s p = s[p] := by simp [byteAt, h]

theorem byteAt_ge {s : List Byte} {p : Nat} (h : s.length ≤ p) : byteAt s p = 0 := by simp [byteAt, h]

/-- Bit n of the word at byte q is bit n mod 8 of byte q + n div 8 (40_word_codec.md R100). -/
theorem wordAt_getLsbD (s : List Byte) (q n : Nat) :
    (wordAt s q).getLsbD n = (decide (n < 32) && (byteAt s (q + n / 8)).getLsbD (n % 8)) := by
  by_cases hn : n < 32
  · simp only [wordAt, BitVec.getLsbD_or, BitVec.getLsbD_shiftLeft, BitVec.getLsbD_setWidth, hn, decide_true, Bool.true_and]
    rcases (by omega : n < 8 ∨ (8 ≤ n ∧ n < 16) ∨ (16 ≤ n ∧ n < 24) ∨ (24 ≤ n ∧ n < 32)) with h | h | h | h
    · rw [show n / 8 = 0 by omega, show n % 8 = n by omega]
      simp [h, show n < 16 by omega, show n < 24 by omega]
    · rw [show n / 8 = 1 by omega, show n % 8 = n - 8 by omega]
      simp [show ¬n < 8 by omega, show n < 16 by omega, show n < 24 by omega, show n - 8 < 32 by omega,
        BitVec.getLsbD_of_ge _ n (show 8 ≤ n by omega)]
    · rw [show n / 8 = 2 by omega, show n % 8 = n - 16 by omega]
      simp [show ¬n < 16 by omega, show n < 24 by omega, show n - 16 < 32 by omega,
        BitVec.getLsbD_of_ge _ n (show 8 ≤ n by omega), BitVec.getLsbD_of_ge _ (n - 8) (show 8 ≤ n - 8 by omega)]
    · rw [show n / 8 = 3 by omega, show n % 8 = n - 24 by omega]
      simp [show ¬n < 24 by omega, show n - 24 < 32 by omega, BitVec.getLsbD_of_ge _ n (show 8 ≤ n by omega),
        BitVec.getLsbD_of_ge _ (n - 8) (show 8 ≤ n - 8 by omega),
        BitVec.getLsbD_of_ge _ (n - 16) (show 8 ≤ n - 16 by omega)]
  · rw [BitVec.getLsbD_of_ge _ _ (by omega)]; simp [hn]

theorem bytesOfWords_cons (w : Word) (ws : List Word) : bytesOfWords (w :: ws) = wordBytes w ++ bytesOfWords ws := by
  simp [bytesOfWords]

@[simp] theorem bytesOfWords_length (ws : List Word) : (bytesOfWords ws).length = 4 * ws.length := by
  induction ws with
  | nil => rfl
  | cons w ws ih => rw [bytesOfWords_cons, List.length_append, ih]; simp [wordBytes]; omega

/-- Byte p of a word sequence is byte p mod 4 of word p div 4 (40_word_codec.md R102). -/
theorem bytesOfWords_getElem? (ws : List Word) (p : Nat) :
    (bytesOfWords ws)[p]? =
      if h : p / 4 < ws.length then some (ws[p / 4].extractLsb' (8 * (p % 4)) 8) else none := by
  induction ws generalizing p with
  | nil => simp [bytesOfWords]
  | cons w ws ih =>
    rw [bytesOfWords_cons]
    by_cases hp : p < 4
    · rw [List.getElem?_append_left (by simp [wordBytes]; omega)]
      have : p = 0 ∨ p = 1 ∨ p = 2 ∨ p = 3 := by omega
      rcases this with rfl | rfl | rfl | rfl <;> simp [wordBytes]
    · rw [List.getElem?_append_right (by simp [wordBytes]; omega)]
      have hl : (wordBytes w).length = 4 := rfl
      rw [hl, ih]
      simp only [show (p - 4) / 4 = p / 4 - 1 by omega, show (p - 4) % 4 = p % 4 by omega, List.length_cons]
      by_cases h : p / 4 - 1 < ws.length
      · rw [dif_pos h, dif_pos (by omega)]; congr 2
        rw [List.getElem_cons, dif_neg (by omega)]
      · rw [dif_neg h, dif_neg (by omega)]

@[simp] theorem bytesToWords_length (s : List Byte) : (bytesToWords s).length = (s.length + 3) / 4 := by
  simp [bytesToWords]

/-- Word j of block b is the word at byte 64 b + 4 j (40_word_codec.md R105). -/
theorem blockAt_getElem (p : List Byte) (b j : Nat) (h : j < 16) :
    (blockAt p b)[j] = wordAt p (64 * b + 4 * j) := by
  have : ∀ k, k < 64 → byteAt ((p.drop (64 * b)).take 64) k = byteAt p (64 * b + k) := by
    intro k hk; simp [byteAt, hk]
  simp only [blockAt, Vector.getElem_ofFn, wordAt]
  rw [this _ (by omega), this _ (by omega), this _ (by omega), this _ (by omega)]
  rfl

theorem toBlock_getElem (p : List Byte) (j : Nat) (h : j < 16) : (toBlock p)[j] = wordAt p (4 * j) := by
  unfold toBlock
  rw [blockAt_getElem _ _ _ h]
  simp

/-- A 64-byte string is the bytes of its block. -/
theorem blockBytes_toBlock (p : List Byte) (h : p.length = 64) : blockBytes (toBlock p) = p := by
  apply List.ext_getElem?
  intro i
  unfold blockBytes
  rw [bytesOfWords_getElem?]
  by_cases hi : i < 64
  · rw [dif_pos (by simp; omega), List.getElem?_eq_getElem (by omega)]
    congr 1
    rw [Vector.getElem_toList, toBlock_getElem _ _ (by omega)]
    apply BitVec.eq_of_getLsbD_eq
    intro n hn
    rw [BitVec.getLsbD_extractLsb', wordAt_getLsbD, show 4 * (i / 4) + (8 * (i % 4) + n) / 8 = i by omega,
      show (8 * (i % 4) + n) % 8 = n by omega, byteAt_lt (by omega)]
    simp [hn]; omega
  · rw [dif_neg (by simp; omega), List.getElem?_eq_none (by omega)]

@[simp] theorem quadBytes_length (q : Quad) : (quadBytes q).length = 16 := by simp [quadBytes]

/-- K0 has 64 bytes (43_hmac.md R161). -/
@[simp] theorem normKey_length (k : List Byte) : (normKey k).length = 64 := by
  unfold normKey extendKey
  split
  · simp [zeros, digestBytes]
  · simp [zeros]
    omega

/-- A padded message is whole blocks (42_padder_digest.md R143). -/
theorem pad_length (m : List Byte) : (pad m).length = 64 * blockCount m.length := by
  simp [pad, zeros, padZeros, le64, blockCount]
  omega

@[simp] theorem le64_length (l : Nat) : (le64 l).length = 8 := by simp [le64]

/-- Every byte of a padded message (42_padder_digest.md R141). -/
theorem pad_getElem? (m : List Byte) (i : Nat) :
    (pad m)[i]? =
      if i < m.length then m[i]?
      else if i = m.length then some 0x80
      else if i < m.length + 1 + padZeros m.length then some 0
      else (le64 (8 * m.length))[i - (m.length + 1 + padZeros m.length)]? := by
  unfold pad
  by_cases h1 : i < m.length
  · rw [if_pos h1, List.append_assoc, List.append_assoc, List.getElem?_append_left h1]
  rw [if_neg h1]
  by_cases h2 : i = m.length
  · rw [if_pos h2, List.append_assoc, List.append_assoc, List.getElem?_append_right (by omega)]
    simp [h2]
  rw [if_neg h2]
  by_cases h3 : i < m.length + 1 + padZeros m.length
  · rw [if_pos h3, List.append_assoc, List.getElem?_append_right (by simp; omega),
      List.getElem?_append_left (by simp [zeros]; omega)]
    simp [zeros, List.getElem?_replicate]
    omega
  · rw [if_neg h3, List.getElem?_append_right (by simp [zeros]; omega)]
    congr 1
    simp [zeros]
    omega

end Sys2Proof.Machine
end

