-- ==== Sys2Proof/Laws/Compression.lean ====
section
/-! SUPPORT. The CompressionCore's functions one step at a time, so that no proof unfolds 64 steps. -/

namespace Sys2Proof.Machine

@[simp] theorem workAfter_zero (q : Quad) (x : Block) : workAfter q x 0 = Work.ofQuad q := rfl

theorem workAfter_succ (q : Quad) (x : Block) (n : Nat) :
    workAfter q x (n + 1) = stepOf (BitVec.ofNat 6 n) x (workAfter q x n) := rfl

/-- Compress from the registers after all 64 steps (41_compression_core.md R127). -/
theorem feedForward_workAfter (q : Quad) (x : Block) : feedForward q (workAfter q x 64) = compress q x := rfl

@[simp] theorem chainAfter_zero (p : List Byte) : chainAfter p 0 = iv := rfl

theorem chainAfter_succ (p : List Byte) (b : Nat) : chainAfter p (b + 1) = compress (chainAfter p b) (blockAt p b) := rfl

/-- rotl32 is the rotation of the 32 bits (00_scope.md R9). -/
theorem rotl32_eq_rotateLeft (x : Word) {s : Nat} (h : s < 32) : rotl32 x s = x.rotateLeft s := by
  simp [rotl32, BitVec.rotateLeft, BitVec.rotateLeftAux, Nat.mod_eq_of_lt h]

end Sys2Proof.Machine
end

