-- ==== Sys2Proof/Laws/Encoding.lean ====
section
/-! SUPPORT. The fields of a command word and of a step index as numbers, and that taking fields and putting them together are inverse. -/

namespace Sys2Proof

theorem cmdWord_toNat (rsv : BitVec 28) (op : BitVec 4) : (cmdWord rsv op).toNat = rsv.toNat * 16 + op.toNat := by
  show (BitVec.append rsv op).toNat = _
  rw [BitVec.append_eq, BitVec.toNat_append, ← Nat.shiftLeft_add_eq_or_of_lt op.isLt, Nat.shiftLeft_eq]

theorem stepIndex_toNat (rnd : BitVec 2) (j : BitVec 4) : (stepIndex rnd j).toNat = rnd.toNat * 16 + j.toNat := by
  show (BitVec.append rnd j).toNat = _
  rw [BitVec.append_eq, BitVec.toNat_append, ← Nat.shiftLeft_add_eq_or_of_lt j.isLt, Nat.shiftLeft_eq]

theorem opField_toNat (w : Word) : (opField w).toNat = w.toNat % 16 := by simp [opField]

theorem rsvField_toNat (w : Word) : (rsvField w).toNat = w.toNat / 16 := by
  simp only [rsvField, BitVec.extractLsb'_toNat, Nat.shiftRight_eq_div_pow]
  have := w.isLt
  omega

/-- RSV is 0 exactly for the words below 16. -/
theorem rsvField_eq_zero (w : Word) : rsvField w = 0 ↔ w.toNat < 16 := by
  rw [← BitVec.toNat_inj, rsvField_toNat]
  show w.toNat / 16 = 0 ↔ _
  omega

@[simp] theorem rsvField_cmdWord (rsv : BitVec 28) (op : BitVec 4) : rsvField (cmdWord rsv op) = rsv := by
  apply BitVec.eq_of_toNat_eq
  rw [rsvField_toNat, cmdWord_toNat]
  have := op.isLt
  omega

@[simp] theorem opField_cmdWord (rsv : BitVec 28) (op : BitVec 4) : opField (cmdWord rsv op) = op := by
  apply BitVec.eq_of_toNat_eq
  rw [opField_toNat, cmdWord_toNat]
  have := op.isLt
  omega

@[simp] theorem cmdWord_fields (w : Word) : cmdWord (rsvField w) (opField w) = w := by
  apply BitVec.eq_of_toNat_eq
  rw [cmdWord_toNat, rsvField_toNat, opField_toNat]
  omega

/-- The bytes a table word is laid out in are the word's. -/
theorem wordOfBytes_byteOfNat (w : Nat) :
    wordOfBytes (byteOfNat w 0) (byteOfNat w 1) (byteOfNat w 2) (byteOfNat w 3) = BitVec.ofNat 32 w := by
  apply BitVec.eq_of_toNat_eq
  simp only [wordOfBytes, byteOfNat, BitVec.toNat_append, BitVec.toNat_ofNat]
  rw [← Nat.shiftLeft_add_eq_or_of_lt (Nat.mod_lt _ (by decide)), ← Nat.shiftLeft_add_eq_or_of_lt (Nat.mod_lt _ (by decide)),
    ← Nat.shiftLeft_add_eq_or_of_lt (Nat.mod_lt _ (by decide))]
  simp only [Nat.shiftLeft_eq]
  omega

end Sys2Proof
end

