-- ==== Sys2Proof/Laws/State.lean ====
section
/-! SUPPORT. One lemma per field for each shared update of the state, so that no later proof unfolds a record update. -/

namespace Sys2Proof.Machine

/-! ### accept -/

@[simp] theorem accept_status (v : Word) (s : State) : (accept v s).status = s.status.atAcceptance := rfl
@[simp] theorem accept_ie (v : Word) (s : State) : (accept v s).ie = s.ie := rfl
@[simp] theorem accept_msgAddr (v : Word) (s : State) : (accept v s).msgAddr = s.msgAddr := rfl
@[simp] theorem accept_msgLen (v : Word) (s : State) : (accept v s).msgLen = s.msgLen := rfl
@[simp] theorem accept_keyAddr (v : Word) (s : State) : (accept v s).keyAddr = s.keyAddr := rfl
@[simp] theorem accept_keyLen (v : Word) (s : State) : (accept v s).keyLen = s.keyLen := rfl
@[simp] theorem accept_acc (v : Word) (s : State) : (accept v s).acc = s.acc := rfl
@[simp] theorem accept_digest (v : Word) (s : State) : (accept v s).digest = s.digest := rfl
@[simp] theorem accept_xbuf (v : Word) (s : State) : (accept v s).xbuf = s.xbuf := rfl
@[simp] theorem accept_kbuf (v : Word) (s : State) : (accept v s).kbuf = s.kbuf := rfl
@[simp] theorem accept_work (v : Word) (s : State) : (accept v s).work = s.work := rfl
@[simp] theorem accept_chain (v : Word) (s : State) : (accept v s).chain = s.chain := rfl
@[simp] theorem accept_innerHash (v : Word) (s : State) : (accept v s).innerHash = s.innerHash := rfl
@[simp] theorem accept_stage (v : Word) (s : State) : (accept v s).stage = .accepted := rfl
@[simp] theorem accept_cmd (v : Word) (s : State) : (accept v s).cmd = v := rfl
@[simp] theorem accept_pass (v : Word) (s : State) : (accept v s).pass = s.pass := rfl
@[simp] theorem accept_block (v : Word) (s : State) : (accept v s).block = s.block := rfl
@[simp] theorem accept_stepIdx (v : Word) (s : State) : (accept v s).stepIdx = s.stepIdx := rfl
@[simp] theorem accept_mem (v : Word) (s : State) : (accept v s).mem = s.mem := rfl
@[simp] theorem accept_absent (v : Word) (s : State) : (accept v s).absent = s.absent := rfl
@[simp] theorem accept_device (v : Word) (s : State) : (accept v s).device = s.device := rfl
@[simp] theorem accept_mmioBase (v : Word) (s : State) : (accept v s).mmioBase = s.mmioBase := rfl
@[simp] theorem accept_racing (v : Word) (s : State) : (accept v s).racing = [] := rfl
@[simp] theorem accept_inputs (v : Word) (s : State) : (accept v s).inputs = s.inputs := rfl
@[simp] theorem accept_rdata (v : Word) (s : State) : (accept v s).rdata = s.rdata := rfl
@[simp] theorem accept_draws (v : Word) (s : State) : (accept v s).draws = s.draws := rfl

/-! ### complete -/

@[simp] theorem complete_status (e : ErrCode) (s : State) : (complete e s).status = s.status.atCompletion e := rfl
@[simp] theorem complete_ie (e : ErrCode) (s : State) : (complete e s).ie = s.ie := rfl
@[simp] theorem complete_msgAddr (e : ErrCode) (s : State) : (complete e s).msgAddr = s.msgAddr := rfl
@[simp] theorem complete_msgLen (e : ErrCode) (s : State) : (complete e s).msgLen = s.msgLen := rfl
@[simp] theorem complete_keyAddr (e : ErrCode) (s : State) : (complete e s).keyAddr = s.keyAddr := rfl
@[simp] theorem complete_keyLen (e : ErrCode) (s : State) : (complete e s).keyLen = s.keyLen := rfl
@[simp] theorem complete_acc (e : ErrCode) (s : State) : (complete e s).acc = s.acc := rfl
@[simp] theorem complete_digest (e : ErrCode) (s : State) : (complete e s).digest = s.digest := rfl
@[simp] theorem complete_xbuf (e : ErrCode) (s : State) : (complete e s).xbuf = s.xbuf := rfl
@[simp] theorem complete_kbuf (e : ErrCode) (s : State) : (complete e s).kbuf = s.kbuf := rfl
@[simp] theorem complete_work (e : ErrCode) (s : State) : (complete e s).work = s.work := rfl
@[simp] theorem complete_chain (e : ErrCode) (s : State) : (complete e s).chain = s.chain := rfl
@[simp] theorem complete_innerHash (e : ErrCode) (s : State) : (complete e s).innerHash = s.innerHash := rfl
@[simp] theorem complete_stage (e : ErrCode) (s : State) : (complete e s).stage = .idle := rfl
@[simp] theorem complete_cmd (e : ErrCode) (s : State) : (complete e s).cmd = s.cmd := rfl
@[simp] theorem complete_pass (e : ErrCode) (s : State) : (complete e s).pass = .key := rfl
@[simp] theorem complete_block (e : ErrCode) (s : State) : (complete e s).block = 0 := rfl
@[simp] theorem complete_stepIdx (e : ErrCode) (s : State) : (complete e s).stepIdx = 0 := rfl
@[simp] theorem complete_mem (e : ErrCode) (s : State) : (complete e s).mem = s.mem := rfl
@[simp] theorem complete_absent (e : ErrCode) (s : State) : (complete e s).absent = s.absent := rfl
@[simp] theorem complete_device (e : ErrCode) (s : State) : (complete e s).device = s.device := rfl
@[simp] theorem complete_mmioBase (e : ErrCode) (s : State) : (complete e s).mmioBase = s.mmioBase := rfl
@[simp] theorem complete_racing (e : ErrCode) (s : State) : (complete e s).racing = [] := rfl
@[simp] theorem complete_inputs (e : ErrCode) (s : State) : (complete e s).inputs = s.inputs := rfl
@[simp] theorem complete_rdata (e : ErrCode) (s : State) : (complete e s).rdata = s.rdata := rfl
@[simp] theorem complete_draws (e : ErrCode) (s : State) : (complete e s).draws = s.draws + 1 := rfl

/-! ### freeEngine -/

@[simp] theorem freeEngine_status (s : State) : (freeEngine s).status = s.status := rfl
@[simp] theorem freeEngine_ie (s : State) : (freeEngine s).ie = s.ie := rfl
@[simp] theorem freeEngine_msgAddr (s : State) : (freeEngine s).msgAddr = s.msgAddr := rfl
@[simp] theorem freeEngine_msgLen (s : State) : (freeEngine s).msgLen = s.msgLen := rfl
@[simp] theorem freeEngine_keyAddr (s : State) : (freeEngine s).keyAddr = s.keyAddr := rfl
@[simp] theorem freeEngine_keyLen (s : State) : (freeEngine s).keyLen = s.keyLen := rfl
@[simp] theorem freeEngine_acc (s : State) : (freeEngine s).acc = s.acc := rfl
@[simp] theorem freeEngine_digest (s : State) : (freeEngine s).digest = s.digest := rfl
@[simp] theorem freeEngine_xbuf (s : State) : (freeEngine s).xbuf = s.xbuf := rfl
@[simp] theorem freeEngine_kbuf (s : State) : (freeEngine s).kbuf = s.kbuf := rfl
@[simp] theorem freeEngine_stage (s : State) : (freeEngine s).stage = s.stage := rfl
@[simp] theorem freeEngine_cmd (s : State) : (freeEngine s).cmd = s.cmd := rfl
@[simp] theorem freeEngine_pass (s : State) : (freeEngine s).pass = s.pass := rfl
@[simp] theorem freeEngine_block (s : State) : (freeEngine s).block = s.block := rfl
@[simp] theorem freeEngine_stepIdx (s : State) : (freeEngine s).stepIdx = s.stepIdx := rfl
@[simp] theorem freeEngine_mem (s : State) : (freeEngine s).mem = s.mem := rfl
@[simp] theorem freeEngine_absent (s : State) : (freeEngine s).absent = s.absent := rfl
@[simp] theorem freeEngine_device (s : State) : (freeEngine s).device = s.device := rfl
@[simp] theorem freeEngine_mmioBase (s : State) : (freeEngine s).mmioBase = s.mmioBase := rfl
@[simp] theorem freeEngine_racing (s : State) : (freeEngine s).racing = s.racing := rfl
@[simp] theorem freeEngine_inputs (s : State) : (freeEngine s).inputs = s.inputs := rfl
@[simp] theorem freeEngine_rdata (s : State) : (freeEngine s).rdata = s.rdata := rfl
@[simp] theorem freeEngine_draws (s : State) : (freeEngine s).draws = s.draws := rfl

/-! ### deliver -/

@[simp] theorem deliver_status (w : Word) (s : State) : (deliver w s).status = s.status := rfl
@[simp] theorem deliver_ie (w : Word) (s : State) : (deliver w s).ie = s.ie := rfl
@[simp] theorem deliver_msgAddr (w : Word) (s : State) : (deliver w s).msgAddr = s.msgAddr := rfl
@[simp] theorem deliver_msgLen (w : Word) (s : State) : (deliver w s).msgLen = s.msgLen := rfl
@[simp] theorem deliver_keyAddr (w : Word) (s : State) : (deliver w s).keyAddr = s.keyAddr := rfl
@[simp] theorem deliver_keyLen (w : Word) (s : State) : (deliver w s).keyLen = s.keyLen := rfl
@[simp] theorem deliver_acc (w : Word) (s : State) : (deliver w s).acc = s.acc := rfl
@[simp] theorem deliver_digest (w : Word) (s : State) : (deliver w s).digest = s.digest := rfl
@[simp] theorem deliver_xbuf (w : Word) (s : State) : (deliver w s).xbuf = s.xbuf := rfl
@[simp] theorem deliver_kbuf (w : Word) (s : State) : (deliver w s).kbuf = s.kbuf := rfl
@[simp] theorem deliver_work (w : Word) (s : State) : (deliver w s).work = s.work := rfl
@[simp] theorem deliver_chain (w : Word) (s : State) : (deliver w s).chain = s.chain := rfl
@[simp] theorem deliver_innerHash (w : Word) (s : State) : (deliver w s).innerHash = s.innerHash := rfl
@[simp] theorem deliver_stage (w : Word) (s : State) : (deliver w s).stage = s.stage := rfl
@[simp] theorem deliver_cmd (w : Word) (s : State) : (deliver w s).cmd = s.cmd := rfl
@[simp] theorem deliver_pass (w : Word) (s : State) : (deliver w s).pass = s.pass := rfl
@[simp] theorem deliver_block (w : Word) (s : State) : (deliver w s).block = s.block := rfl
@[simp] theorem deliver_stepIdx (w : Word) (s : State) : (deliver w s).stepIdx = s.stepIdx := rfl
@[simp] theorem deliver_mem (w : Word) (s : State) : (deliver w s).mem = s.mem := rfl
@[simp] theorem deliver_absent (w : Word) (s : State) : (deliver w s).absent = s.absent := rfl
@[simp] theorem deliver_device (w : Word) (s : State) : (deliver w s).device = s.device := rfl
@[simp] theorem deliver_mmioBase (w : Word) (s : State) : (deliver w s).mmioBase = s.mmioBase := rfl
@[simp] theorem deliver_racing (w : Word) (s : State) : (deliver w s).racing = s.racing := rfl
@[simp] theorem deliver_inputs (w : Word) (s : State) : (deliver w s).inputs = s.inputs := rfl
@[simp] theorem deliver_rdata (w : Word) (s : State) : (deliver w s).rdata = w := rfl
@[simp] theorem deliver_draws (w : Word) (s : State) : (deliver w s).draws = s.draws := rfl

/-! ### startPass -/

@[simp] theorem startPass_status (p : Pass) (s : State) : (startPass p s).status = s.status := rfl
@[simp] theorem startPass_ie (p : Pass) (s : State) : (startPass p s).ie = s.ie := rfl
@[simp] theorem startPass_msgAddr (p : Pass) (s : State) : (startPass p s).msgAddr = s.msgAddr := rfl
@[simp] theorem startPass_msgLen (p : Pass) (s : State) : (startPass p s).msgLen = s.msgLen := rfl
@[simp] theorem startPass_keyAddr (p : Pass) (s : State) : (startPass p s).keyAddr = s.keyAddr := rfl
@[simp] theorem startPass_keyLen (p : Pass) (s : State) : (startPass p s).keyLen = s.keyLen := rfl
@[simp] theorem startPass_acc (p : Pass) (s : State) : (startPass p s).acc = knownQuad iv := rfl
@[simp] theorem startPass_digest (p : Pass) (s : State) : (startPass p s).digest = s.digest := rfl
@[simp] theorem startPass_xbuf (p : Pass) (s : State) : (startPass p s).xbuf = s.xbuf := rfl
@[simp] theorem startPass_kbuf (p : Pass) (s : State) : (startPass p s).kbuf = s.kbuf := rfl
@[simp] theorem startPass_work (p : Pass) (s : State) : (startPass p s).work = s.work := rfl
@[simp] theorem startPass_chain (p : Pass) (s : State) : (startPass p s).chain = s.chain := rfl
@[simp] theorem startPass_innerHash (p : Pass) (s : State) : (startPass p s).innerHash = s.innerHash := rfl
@[simp] theorem startPass_stage (p : Pass) (s : State) : (startPass p s).stage = .blockStart := rfl
@[simp] theorem startPass_cmd (p : Pass) (s : State) : (startPass p s).cmd = s.cmd := rfl
@[simp] theorem startPass_pass (p : Pass) (s : State) : (startPass p s).pass = p := rfl
@[simp] theorem startPass_block (p : Pass) (s : State) : (startPass p s).block = 0 := rfl
@[simp] theorem startPass_stepIdx (p : Pass) (s : State) : (startPass p s).stepIdx = s.stepIdx := rfl
@[simp] theorem startPass_mem (p : Pass) (s : State) : (startPass p s).mem = s.mem := rfl
@[simp] theorem startPass_absent (p : Pass) (s : State) : (startPass p s).absent = s.absent := rfl
@[simp] theorem startPass_device (p : Pass) (s : State) : (startPass p s).device = s.device := rfl
@[simp] theorem startPass_mmioBase (p : Pass) (s : State) : (startPass p s).mmioBase = s.mmioBase := rfl
@[simp] theorem startPass_racing (p : Pass) (s : State) : (startPass p s).racing = s.racing := rfl
@[simp] theorem startPass_inputs (p : Pass) (s : State) : (startPass p s).inputs = s.inputs := rfl
@[simp] theorem startPass_rdata (p : Pass) (s : State) : (startPass p s).rdata = s.rdata := rfl
@[simp] theorem startPass_draws (p : Pass) (s : State) : (startPass p s).draws = s.draws := rfl

/-! ### loadChain -/

@[simp] theorem loadChain_status (s : State) : (loadChain s).status = s.status := rfl
@[simp] theorem loadChain_ie (s : State) : (loadChain s).ie = s.ie := rfl
@[simp] theorem loadChain_msgAddr (s : State) : (loadChain s).msgAddr = s.msgAddr := rfl
@[simp] theorem loadChain_msgLen (s : State) : (loadChain s).msgLen = s.msgLen := rfl
@[simp] theorem loadChain_keyAddr (s : State) : (loadChain s).keyAddr = s.keyAddr := rfl
@[simp] theorem loadChain_keyLen (s : State) : (loadChain s).keyLen = s.keyLen := rfl
@[simp] theorem loadChain_acc (s : State) : (loadChain s).acc = s.acc := rfl
@[simp] theorem loadChain_digest (s : State) : (loadChain s).digest = s.digest := rfl
@[simp] theorem loadChain_xbuf (s : State) : (loadChain s).xbuf = s.xbuf := rfl
@[simp] theorem loadChain_kbuf (s : State) : (loadChain s).kbuf = s.kbuf := rfl
@[simp] theorem loadChain_work (s : State) : (loadChain s).work = Work.ofQuad s.accOperand := rfl
@[simp] theorem loadChain_chain (s : State) : (loadChain s).chain = s.accOperand := rfl
@[simp] theorem loadChain_innerHash (s : State) : (loadChain s).innerHash = s.innerHash := rfl
@[simp] theorem loadChain_stage (s : State) : (loadChain s).stage = .rounds := rfl
@[simp] theorem loadChain_cmd (s : State) : (loadChain s).cmd = s.cmd := rfl
@[simp] theorem loadChain_pass (s : State) : (loadChain s).pass = s.pass := rfl
@[simp] theorem loadChain_block (s : State) : (loadChain s).block = s.block := rfl
@[simp] theorem loadChain_stepIdx (s : State) : (loadChain s).stepIdx = 0 := rfl
@[simp] theorem loadChain_mem (s : State) : (loadChain s).mem = s.mem := rfl
@[simp] theorem loadChain_absent (s : State) : (loadChain s).absent = s.absent := rfl
@[simp] theorem loadChain_device (s : State) : (loadChain s).device = s.device := rfl
@[simp] theorem loadChain_mmioBase (s : State) : (loadChain s).mmioBase = s.mmioBase := rfl
@[simp] theorem loadChain_racing (s : State) : (loadChain s).racing = s.racing := rfl
@[simp] theorem loadChain_inputs (s : State) : (loadChain s).inputs = s.inputs := rfl
@[simp] theorem loadChain_rdata (s : State) : (loadChain s).rdata = s.rdata := rfl
@[simp] theorem loadChain_draws (s : State) : (loadChain s).draws = s.draws := rfl

/-! ### roundStep -/

@[simp] theorem roundStep_status (fn : Word → Word → Word → Word) (i : BitVec 6) (s : State) : (roundStep fn i s).status = s.status := rfl
@[simp] theorem roundStep_ie (fn : Word → Word → Word → Word) (i : BitVec 6) (s : State) : (roundStep fn i s).ie = s.ie := rfl
@[simp] theorem roundStep_msgAddr (fn : Word → Word → Word → Word) (i : BitVec 6) (s : State) : (roundStep fn i s).msgAddr = s.msgAddr := rfl
@[simp] theorem roundStep_msgLen (fn : Word → Word → Word → Word) (i : BitVec 6) (s : State) : (roundStep fn i s).msgLen = s.msgLen := rfl
@[simp] theorem roundStep_keyAddr (fn : Word → Word → Word → Word) (i : BitVec 6) (s : State) : (roundStep fn i s).keyAddr = s.keyAddr := rfl
@[simp] theorem roundStep_keyLen (fn : Word → Word → Word → Word) (i : BitVec 6) (s : State) : (roundStep fn i s).keyLen = s.keyLen := rfl
@[simp] theorem roundStep_acc (fn : Word → Word → Word → Word) (i : BitVec 6) (s : State) : (roundStep fn i s).acc = s.acc := rfl
@[simp] theorem roundStep_digest (fn : Word → Word → Word → Word) (i : BitVec 6) (s : State) : (roundStep fn i s).digest = s.digest := rfl
@[simp] theorem roundStep_xbuf (fn : Word → Word → Word → Word) (i : BitVec 6) (s : State) : (roundStep fn i s).xbuf = s.xbuf := rfl
@[simp] theorem roundStep_kbuf (fn : Word → Word → Word → Word) (i : BitVec 6) (s : State) : (roundStep fn i s).kbuf = s.kbuf := rfl
@[simp] theorem roundStep_chain (fn : Word → Word → Word → Word) (i : BitVec 6) (s : State) : (roundStep fn i s).chain = s.chain := rfl
@[simp] theorem roundStep_innerHash (fn : Word → Word → Word → Word) (i : BitVec 6) (s : State) : (roundStep fn i s).innerHash = s.innerHash := rfl
@[simp] theorem roundStep_stage (fn : Word → Word → Word → Word) (i : BitVec 6) (s : State) : (roundStep fn i s).stage = stageAfterStep i s.stage := rfl
@[simp] theorem roundStep_cmd (fn : Word → Word → Word → Word) (i : BitVec 6) (s : State) : (roundStep fn i s).cmd = s.cmd := rfl
@[simp] theorem roundStep_pass (fn : Word → Word → Word → Word) (i : BitVec 6) (s : State) : (roundStep fn i s).pass = s.pass := rfl
@[simp] theorem roundStep_block (fn : Word → Word → Word → Word) (i : BitVec 6) (s : State) : (roundStep fn i s).block = s.block := rfl
@[simp] theorem roundStep_stepIdx (fn : Word → Word → Word → Word) (i : BitVec 6) (s : State) : (roundStep fn i s).stepIdx = nextStep i := rfl
@[simp] theorem roundStep_mem (fn : Word → Word → Word → Word) (i : BitVec 6) (s : State) : (roundStep fn i s).mem = s.mem := rfl
@[simp] theorem roundStep_absent (fn : Word → Word → Word → Word) (i : BitVec 6) (s : State) : (roundStep fn i s).absent = s.absent := rfl
@[simp] theorem roundStep_device (fn : Word → Word → Word → Word) (i : BitVec 6) (s : State) : (roundStep fn i s).device = s.device := rfl
@[simp] theorem roundStep_mmioBase (fn : Word → Word → Word → Word) (i : BitVec 6) (s : State) : (roundStep fn i s).mmioBase = s.mmioBase := rfl
@[simp] theorem roundStep_racing (fn : Word → Word → Word → Word) (i : BitVec 6) (s : State) : (roundStep fn i s).racing = s.racing := rfl
@[simp] theorem roundStep_inputs (fn : Word → Word → Word → Word) (i : BitVec 6) (s : State) : (roundStep fn i s).inputs = s.inputs := rfl
@[simp] theorem roundStep_rdata (fn : Word → Word → Word → Word) (i : BitVec 6) (s : State) : (roundStep fn i s).rdata = s.rdata := rfl

/-! ### resetBlock -/

@[simp] theorem resetBlock_status (s : State) : (resetBlock s).status = State.reset.status := rfl
@[simp] theorem resetBlock_ie (s : State) : (resetBlock s).ie = State.reset.ie := rfl
@[simp] theorem resetBlock_msgAddr (s : State) : (resetBlock s).msgAddr = State.reset.msgAddr := rfl
@[simp] theorem resetBlock_msgLen (s : State) : (resetBlock s).msgLen = State.reset.msgLen := rfl
@[simp] theorem resetBlock_keyAddr (s : State) : (resetBlock s).keyAddr = State.reset.keyAddr := rfl
@[simp] theorem resetBlock_keyLen (s : State) : (resetBlock s).keyLen = State.reset.keyLen := rfl
@[simp] theorem resetBlock_acc (s : State) : (resetBlock s).acc = State.reset.acc := rfl
@[simp] theorem resetBlock_digest (s : State) : (resetBlock s).digest = State.reset.digest := rfl
@[simp] theorem resetBlock_xbuf (s : State) : (resetBlock s).xbuf = State.reset.xbuf := rfl
@[simp] theorem resetBlock_kbuf (s : State) : (resetBlock s).kbuf = State.reset.kbuf := rfl
@[simp] theorem resetBlock_work (s : State) : (resetBlock s).work = State.reset.work := rfl
@[simp] theorem resetBlock_chain (s : State) : (resetBlock s).chain = State.reset.chain := rfl
@[simp] theorem resetBlock_innerHash (s : State) : (resetBlock s).innerHash = State.reset.innerHash := rfl
@[simp] theorem resetBlock_stage (s : State) : (resetBlock s).stage = State.reset.stage := rfl
@[simp] theorem resetBlock_cmd (s : State) : (resetBlock s).cmd = State.reset.cmd := rfl
@[simp] theorem resetBlock_pass (s : State) : (resetBlock s).pass = State.reset.pass := rfl
@[simp] theorem resetBlock_block (s : State) : (resetBlock s).block = State.reset.block := rfl
@[simp] theorem resetBlock_stepIdx (s : State) : (resetBlock s).stepIdx = State.reset.stepIdx := rfl
@[simp] theorem resetBlock_mem (s : State) : (resetBlock s).mem = s.mem := rfl
@[simp] theorem resetBlock_absent (s : State) : (resetBlock s).absent = s.absent := rfl
@[simp] theorem resetBlock_device (s : State) : (resetBlock s).device = s.device := rfl
@[simp] theorem resetBlock_mmioBase (s : State) : (resetBlock s).mmioBase = s.mmioBase := rfl
@[simp] theorem resetBlock_racing (s : State) : (resetBlock s).racing = State.reset.racing := rfl
@[simp] theorem resetBlock_inputs (s : State) : (resetBlock s).inputs = s.inputs := rfl
@[simp] theorem resetBlock_rdata (s : State) : (resetBlock s).rdata = s.rdata := rfl
@[simp] theorem resetBlock_draws (s : State) : (resetBlock s).draws = s.draws := rfl

/-! ### finishDigest -/

@[simp] theorem finishDigest_status (r : Vector Reg 4) (s : State) : (finishDigest r s).status = s.status.atCompletion .none := rfl
@[simp] theorem finishDigest_ie (r : Vector Reg 4) (s : State) : (finishDigest r s).ie = s.ie := rfl
@[simp] theorem finishDigest_msgAddr (r : Vector Reg 4) (s : State) : (finishDigest r s).msgAddr = s.msgAddr := rfl
@[simp] theorem finishDigest_msgLen (r : Vector Reg 4) (s : State) : (finishDigest r s).msgLen = s.msgLen := rfl
@[simp] theorem finishDigest_keyAddr (r : Vector Reg 4) (s : State) : (finishDigest r s).keyAddr = s.keyAddr := rfl
@[simp] theorem finishDigest_keyLen (r : Vector Reg 4) (s : State) : (finishDigest r s).keyLen = s.keyLen := rfl
@[simp] theorem finishDigest_acc (r : Vector Reg 4) (s : State) : (finishDigest r s).acc = r := rfl
@[simp] theorem finishDigest_digest (r : Vector Reg 4) (s : State) : (finishDigest r s).digest = r := rfl
@[simp] theorem finishDigest_xbuf (r : Vector Reg 4) (s : State) : (finishDigest r s).xbuf = anyBlock := rfl
@[simp] theorem finishDigest_kbuf (r : Vector Reg 4) (s : State) : (finishDigest r s).kbuf = s.kbuf := rfl
@[simp] theorem finishDigest_stage (r : Vector Reg 4) (s : State) : (finishDigest r s).stage = .idle := rfl
@[simp] theorem finishDigest_cmd (r : Vector Reg 4) (s : State) : (finishDigest r s).cmd = s.cmd := rfl
@[simp] theorem finishDigest_pass (r : Vector Reg 4) (s : State) : (finishDigest r s).pass = .key := rfl
@[simp] theorem finishDigest_block (r : Vector Reg 4) (s : State) : (finishDigest r s).block = 0 := rfl
@[simp] theorem finishDigest_stepIdx (r : Vector Reg 4) (s : State) : (finishDigest r s).stepIdx = 0 := rfl
@[simp] theorem finishDigest_mem (r : Vector Reg 4) (s : State) : (finishDigest r s).mem = s.mem := rfl
@[simp] theorem finishDigest_absent (r : Vector Reg 4) (s : State) : (finishDigest r s).absent = s.absent := rfl
@[simp] theorem finishDigest_device (r : Vector Reg 4) (s : State) : (finishDigest r s).device = s.device := rfl
@[simp] theorem finishDigest_mmioBase (r : Vector Reg 4) (s : State) : (finishDigest r s).mmioBase = s.mmioBase := rfl
@[simp] theorem finishDigest_racing (r : Vector Reg 4) (s : State) : (finishDigest r s).racing = [] := rfl
@[simp] theorem finishDigest_inputs (r : Vector Reg 4) (s : State) : (finishDigest r s).inputs = s.inputs := rfl
@[simp] theorem finishDigest_rdata (r : Vector Reg 4) (s : State) : (finishDigest r s).rdata = s.rdata := rfl
@[simp] theorem finishDigest_draws (r : Vector Reg 4) (s : State) : (finishDigest r s).draws = s.draws + 1 := rfl

/-! ### raiseBusErr -/

@[simp] theorem raiseBusErr_status (b : Bool) (s : State) : (raiseBusErr b s).status = s.status.atCompletion .busErr := rfl
@[simp] theorem raiseBusErr_ie (b : Bool) (s : State) : (raiseBusErr b s).ie = s.ie := rfl
@[simp] theorem raiseBusErr_msgAddr (b : Bool) (s : State) : (raiseBusErr b s).msgAddr = s.msgAddr := rfl
@[simp] theorem raiseBusErr_msgLen (b : Bool) (s : State) : (raiseBusErr b s).msgLen = s.msgLen := rfl
@[simp] theorem raiseBusErr_keyAddr (b : Bool) (s : State) : (raiseBusErr b s).keyAddr = s.keyAddr := rfl
@[simp] theorem raiseBusErr_keyLen (b : Bool) (s : State) : (raiseBusErr b s).keyLen = s.keyLen := rfl
@[simp] theorem raiseBusErr_acc (b : Bool) (s : State) : (raiseBusErr b s).acc = anyQuad := rfl
@[simp] theorem raiseBusErr_digest (b : Bool) (s : State) : (raiseBusErr b s).digest = s.digest := rfl
@[simp] theorem raiseBusErr_xbuf (b : Bool) (s : State) : (raiseBusErr b s).xbuf = anyBlock := rfl
@[simp] theorem raiseBusErr_kbuf (b : Bool) (s : State) : (raiseBusErr b s).kbuf = if b then anyBlock else s.kbuf := rfl
@[simp] theorem raiseBusErr_stage (b : Bool) (s : State) : (raiseBusErr b s).stage = .idle := rfl
@[simp] theorem raiseBusErr_cmd (b : Bool) (s : State) : (raiseBusErr b s).cmd = s.cmd := rfl
@[simp] theorem raiseBusErr_pass (b : Bool) (s : State) : (raiseBusErr b s).pass = .key := rfl
@[simp] theorem raiseBusErr_block (b : Bool) (s : State) : (raiseBusErr b s).block = 0 := rfl
@[simp] theorem raiseBusErr_stepIdx (b : Bool) (s : State) : (raiseBusErr b s).stepIdx = 0 := rfl
@[simp] theorem raiseBusErr_mem (b : Bool) (s : State) : (raiseBusErr b s).mem = s.mem := rfl
@[simp] theorem raiseBusErr_absent (b : Bool) (s : State) : (raiseBusErr b s).absent = s.absent := rfl
@[simp] theorem raiseBusErr_device (b : Bool) (s : State) : (raiseBusErr b s).device = s.device := rfl
@[simp] theorem raiseBusErr_mmioBase (b : Bool) (s : State) : (raiseBusErr b s).mmioBase = s.mmioBase := rfl
@[simp] theorem raiseBusErr_racing (b : Bool) (s : State) : (raiseBusErr b s).racing = [] := rfl
@[simp] theorem raiseBusErr_inputs (b : Bool) (s : State) : (raiseBusErr b s).inputs = s.inputs := rfl
@[simp] theorem raiseBusErr_rdata (b : Bool) (s : State) : (raiseBusErr b s).rdata = s.rdata := rfl
@[simp] theorem raiseBusErr_draws (b : Bool) (s : State) : (raiseBusErr b s).draws = s.draws + 1 := rfl

end Sys2Proof.Machine
end

