-- ==== Sys2Proof/Laws/Exec.lean ====
section
/-! SUPPORT. What exec answers for each instruction, and once for all what any next state of exec is. -/

namespace Sys2Proof.Machine

@[simp] theorem exec_nop (s : State) : exec .nop s = .next (complete .none s) := rfl

@[simp] theorem exec_init (s : State) : exec .init s = .next (complete .none { s with acc := knownQuad iv }) := rfl

@[simp] theorem exec_compress (s : State) :
    exec .compress s =
      .next (complete .none (freeEngine { s with acc := knownQuad (compress s.accOperand s.xbufOperand) })) := rfl

@[simp] theorem exec_ipad (s : State) :
    exec .ipad s = .next (complete .none { s with xbuf := knownBlock (padWords 0x36363636 s.kbufOperand) }) := rfl

@[simp] theorem exec_opad (s : State) :
    exec .opad s = .next (complete .none { s with xbuf := knownBlock (padWords 0x5C5C5C5C s.kbufOperand) }) := rfl

@[simp] theorem exec_illegalOp (low : BitVec 3) (s : State) :
    exec (.illegalOp low) s = .next (complete .illegalCmd s) := rfl

@[simp] theorem exec_illegalRsv (rsv : BitVec 28) (op : BitVec 4) (s : State) :
    exec (.illegalRsv rsv op) s = .next (complete .illegalCmd s) := rfl

@[simp] theorem exec_ff (j : BitVec 4) (s : State) : exec (.ff j) s = .next (roundStep roundF (stepIndex 0 j) s) := rfl

@[simp] theorem exec_gg (j : BitVec 4) (s : State) : exec (.gg j) s = .next (roundStep roundG (stepIndex 1 j) s) := rfl

@[simp] theorem exec_hh (j : BitVec 4) (s : State) : exec (.hh j) s = .next (roundStep roundH (stepIndex 2 j) s) := rfl

@[simp] theorem exec_ii (j : BitVec 4) (s : State) : exec (.ii j) s = .next (roundStep roundI (stepIndex 3 j) s) := rfl

/-- DIGEST where its checks pass and its bytes are read (44_commands.md R183). -/
theorem exec_digest_ok {s : State} {m : List Byte} (he : s.digestError = .none) (hm : s.message = some m) :
    exec .digest s =
      .next (finishDigest (resultRegs (s.meetsDevice s.msgAddr.toNat s.msgLen.toNat) (digestWords m)) s) := by
  simp [exec, execDigest, he, hm]

/-- DIGEST where a read returns BusError. -/
theorem exec_digest_bus {s : State} (he : s.digestError = .none) (hm : s.message = none) :
    exec .digest s = .next (raiseBusErr false s) := by
  simp [exec, execDigest, he, hm]

/-- DIGEST where a check fails. -/
theorem exec_digest_check {s : State} (he : s.digestError ≠ .none) :
    exec .digest s = .next (raiseError s.digestError s) := by
  show execDigest s = _
  unfold execDigest
  cases h : s.digestError <;> simp_all

/-- HMAC where its checks pass and its bytes are read (44_commands.md R184). -/
theorem exec_hmac_ok {s : State} {k m : List Byte} (he : s.hmacError = .none) (hk : s.key = some k)
    (hm : s.message = some m) :
    exec .hmac s =
      .next (finishDigest
        (resultRegs (s.keyOnDevice || s.meetsDevice s.msgAddr.toNat s.msgLen.toNat) (hmacWords k m))
        { s with kbuf := keyRegs s.keyOnDevice k }) := by
  simp [exec, execHmac, he, hk, hm]

/-- HMAC where a read returns BusError. -/
theorem exec_hmac_bus {s : State} (he : s.hmacError = .none) (h : s.key = none ∨ s.message = none) :
    exec .hmac s = .next (raiseBusErr true s) := by
  unfold exec execHmac
  simp only [he]
  split
  · simp_all
  · rfl

/-- HMAC where a check fails. -/
theorem exec_hmac_check {s : State} (he : s.hmacError ≠ .none) : exec .hmac s = .next (raiseError s.hmacError s) := by
  show execHmac s = _
  unfold execHmac
  cases h : s.hmacError <;> simp_all

/-- KEYPREP where its checks pass and its bytes are read (44_commands.md R185). -/
theorem exec_keyprep_ok {s : State} {k : List Byte} (he : s.keyError = .none) (hk : s.key = some k) :
    exec .keyprep s = .next (finishKeyprep (decide (64 < k.length)) (keyRegs s.keyOnDevice k) s) := by
  simp [exec, execKeyprep, he, hk]

/-- KEYPREP where a read returns BusError. -/
theorem exec_keyprep_bus {s : State} (he : s.keyError = .none) (hk : s.key = none) :
    exec .keyprep s = .next (raiseBusErr true s) := by
  simp [exec, execKeyprep, he, hk]

/-- KEYPREP where a check fails. -/
theorem exec_keyprep_check {s : State} (he : s.keyError ≠ .none) :
    exec .keyprep s = .next (raiseError s.keyError s) := by
  show execKeyprep s = _
  unfold execKeyprep
  cases h : s.keyError <;> simp_all

/-- `u` differs from `s` in nothing but data registers and engine-internal registers. -/
structure SameControl (s u : State) : Prop where
  status : u.status = s.status
  ie : u.ie = s.ie
  msgAddr : u.msgAddr = s.msgAddr
  msgLen : u.msgLen = s.msgLen
  keyAddr : u.keyAddr = s.keyAddr
  keyLen : u.keyLen = s.keyLen
  stage : u.stage = s.stage
  cmd : u.cmd = s.cmd
  pass : u.pass = s.pass
  block : u.block = s.block
  stepIdx : u.stepIdx = s.stepIdx
  mem : u.mem = s.mem
  absent : u.absent = s.absent
  device : u.device = s.device
  mmioBase : u.mmioBase = s.mmioBase
  racing : u.racing = s.racing
  inputs : u.inputs = s.inputs
  rdata : u.rdata = s.rdata
  draws : u.draws = s.draws

theorem SameControl.refl (s : State) : SameControl s s := by constructor <;> rfl

/-- An instruction is a round step exactly when its encoding is a step index. -/
def isRound : Instr → Bool
  | .ff _ | .gg _ | .hh _ | .ii _ => true
  | .nop | .init | .compress | .digest | .hmac | .keyprep | .ipad | .opad => false
  | .illegalOp _ | .illegalRsv _ _ => false

/-- A host command always answers a next state: a completion of a state that has the same control fields. -/
theorem exec_command {i : Instr} (hi : isRound i = false) (s : State) :
    ∃ e u, SameControl s u ∧ exec i s = .next (complete e u) := by
  cases i with
  | nop => exact ⟨_, _, .refl s, exec_nop s⟩
  | init => exact ⟨_, _, by constructor <;> rfl, exec_init s⟩
  | compress => exact ⟨_, _, by constructor <;> rfl, exec_compress s⟩
  | digest =>
    by_cases he : s.digestError = .none
    · cases hm : s.message with
      | some m => exact ⟨_, _, by constructor <;> rfl, exec_digest_ok he hm⟩
      | none => exact ⟨_, _, by constructor <;> rfl, exec_digest_bus he hm⟩
    · exact ⟨_, _, .refl s, exec_digest_check he⟩
  | hmac =>
    by_cases he : s.hmacError = .none
    · cases hk : s.key with
      | none => exact ⟨_, _, by constructor <;> rfl, exec_hmac_bus he (.inl hk)⟩
      | some k =>
        cases hm : s.message with
        | some m => exact ⟨_, _, by constructor <;> rfl, exec_hmac_ok he hk hm⟩
        | none => exact ⟨_, _, by constructor <;> rfl, exec_hmac_bus he (.inr hm)⟩
    · exact ⟨_, _, .refl s, exec_hmac_check he⟩
  | keyprep =>
    by_cases he : s.keyError = .none
    · cases hk : s.key with
      | none => exact ⟨_, _, by constructor <;> rfl, exec_keyprep_bus he hk⟩
      | some k =>
        rw [exec_keyprep_ok he hk]
        unfold finishKeyprep
        split
        · exact ⟨_, _, by constructor <;> rfl, rfl⟩
        · exact ⟨_, _, by constructor <;> rfl, rfl⟩
    · exact ⟨_, _, .refl s, exec_keyprep_check he⟩
  | ipad => exact ⟨_, _, by constructor <;> rfl, exec_ipad s⟩
  | opad => exact ⟨_, _, by constructor <;> rfl, exec_opad s⟩
  | illegalOp low => exact ⟨_, _, .refl s, exec_illegalOp low s⟩
  | illegalRsv rsv op => exact ⟨_, _, .refl s, exec_illegalRsv rsv op s⟩
  | ff j => cases hi
  | gg j => cases hi
  | hh j => cases hi
  | ii j => cases hi

/-- A step index decodes to a round step with the round function of its round (30_encoding.md R86). -/
theorem exec_decodeStep (i : BitVec 6) (s : State) : exec (decodeStep i) s = .next (roundStep (roundFn i) i s) := by
  have hi : i = stepIndex (rndField i) (jField i) := by
    simp only [stepIndex, rndField, jField]
    revert i; decide
  have cases4 : ∀ r : BitVec 2, r = 0 ∨ r = 1 ∨ r = 2 ∨ r = 3 := by decide
  unfold decodeStep roundFn
  rcases cases4 (rndField i) with h | h | h | h <;> rw [h] at hi ⊢
  · show exec (.ff (jField i)) s = .next (roundStep roundF i s)
    rw [exec_ff, ← hi]
  · show exec (.gg (jField i)) s = .next (roundStep roundG i s)
    rw [exec_gg, ← hi]
  · show exec (.hh (jField i)) s = .next (roundStep roundH i s)
    rw [exec_hh, ← hi]
  · show exec (.ii (jField i)) s = .next (roundStep roundI i s)
    rw [exec_ii, ← hi]

/-- A command word never decodes to a round step (30_encoding.md R80). -/
theorem isRound_decodeCmd (w : Word) : isRound (decodeCmd w) = false := by
  unfold decodeCmd
  split
  · unfold decodeOp
    split <;> rfl
  · rfl

end Sys2Proof.Machine
end

