-- ==== Sys2Proof/Laws/HostPort.lean ====
section
/-! SUPPORT. What a host store and a host read can change, said once: the source memory and the races, or the host's variable and the draw counter. -/

namespace Sys2Proof.Machine

@[simp] theorem lookupByte_nil (a : Nat) : lookupByte [] a = none := rfl

@[simp] theorem lookupByte_cons (k : Nat) (b : Byte) (rest : List Host.Cell) (a : Nat) :
    lookupByte ((k, b) :: rest) a = if k = a then some b else lookupByte rest a := rfl

/-- An address has no drawn byte exactly when no cell holds it. -/
theorem lookupByte_eq_none_iff (l : List Host.Cell) (a : Nat) : lookupByte l a = none ↔ ∀ c ∈ l, c.1 ≠ a := by
  induction l with
  | nil => simp
  | cons c rest ih =>
    obtain ⟨k, b⟩ := c
    by_cases h : k = a
    · simp [h]
    · simp [h, ih]

/-- A store while idle (20_memory.md R70). -/
theorem storeByte_idle {s : State} (hb : s.busy = false) (a : Word) (b : Byte) :
    storeByte a b s = { s with mem := Memory.write s.mem a.toNat b } := by
  simp [storeByte, hb]

/-- The first store to an address while BUSY draws the running command's byte there (20_memory.md R70, log 4). -/
theorem storeByte_first {s : State} (hb : s.busy = true) {a : Word} (h : lookupByte s.racing a.toNat = none) (b : Byte) :
    storeByte a b s =
      { s with
        mem := Memory.write s.mem a.toNat b, draws := s.draws + 1
        racing := (a.toNat, Config.drawByte s.draws a.toNat) :: s.racing } := by
  simp [storeByte, hb, h]

/-- A later store to it draws nothing. -/
theorem storeByte_again {s : State} (hb : s.busy = true) {a : Word} {d : Byte} (h : lookupByte s.racing a.toNat = some d)
    (b : Byte) : storeByte a b s = { s with mem := Memory.write s.mem a.toNat b } := by
  simp [storeByte, hb, h]

@[simp] theorem storeByte_mem (a : Word) (b : Byte) (s : State) :
    (storeByte a b s).mem = Memory.write s.mem a.toNat b := by
  unfold storeByte
  dsimp only
  split
  · split <;> rfl
  · rfl

/-- A store changes the memory, the races and the draw counter and nothing else. -/
theorem storeByte_eq (a : Word) (b : Byte) (s : State) :
    storeByte a b s =
      { s with
        mem := Memory.write s.mem a.toNat b, racing := (storeByte a b s).racing, draws := (storeByte a b s).draws } := by
  unfold storeByte
  dsimp only
  split
  · split <;> rfl
  · rfl

/-- A read changes the host's variable and the draw counter and nothing else. -/
theorem hostRead_eq (r : WindowReg) (s : State) :
    hostRead r s = { s with rdata := (hostRead r s).rdata, draws := (hostRead r s).draws } := by
  cases r <;> rfl

end Sys2Proof.Machine
end

