-- ==== Sys2Proof/Laws/Known.lean ====
section
/-! SUPPORT. Registers whose words are all known: reading them as an operand gives those words. -/

namespace Sys2Proof.Machine

@[simp] theorem knownQuad_getElem (q : Quad) (i : Nat) (h : i < 4) : (knownQuad q)[i] = .known q[i] := by
  simp [knownQuad]

@[simp] theorem knownBlock_getElem (x : Block) (i : Nat) (h : i < 16) : (knownBlock x)[i] = .known x[i] := by
  simp [knownBlock]

/-- A word that is not any value is known. -/
theorem known_of_not_isAny {r : Reg} (h : r.isAny = false) (d : Word) : r = .known (r.value d) := by
  cases r with
  | known w => rfl
  | anyValue => cases h

theorem acc_of_accKnown {s : State} (h : s.accKnown = true) : s.acc = knownQuad s.accOperand := by
  apply Vector.ext
  intro i hi
  have ha : (s.acc[i]).isAny = false := by simpa using List.all_eq_true.1 h (s.acc[i]) (by simp)
  simpa [State.accOperand] using known_of_not_isAny ha _

theorem xbuf_of_xbufKnown {s : State} (h : s.xbufKnown = true) : s.xbuf = knownBlock s.xbufOperand := by
  apply Vector.ext
  intro i hi
  have ha : (s.xbuf[i]).isAny = false := by simpa using List.all_eq_true.1 h (s.xbuf[i]) (by simp)
  simpa [State.xbufOperand] using known_of_not_isAny ha _

theorem accOperand_of_known {s : State} {q : Quad} (h : s.acc = knownQuad q) : s.accOperand = q := by
  apply Vector.ext
  intro i hi
  simp [State.accOperand, h, Reg.value]

theorem xbufOperand_of_known {s : State} {x : Block} (h : s.xbuf = knownBlock x) : s.xbufOperand = x := by
  apply Vector.ext
  intro i hi
  simp [State.xbufOperand, h, Reg.value]

theorem kbufOperand_of_known {s : State} {x : Block} (h : s.kbuf = knownBlock x) : s.kbufOperand = x := by
  apply Vector.ext
  intro i hi
  simp [State.kbufOperand, h, Reg.value]

theorem accKnown_of_known {s : State} {q : Quad} (h : s.acc = knownQuad q) : s.accKnown = true := by
  simp [State.accKnown, h, knownQuad, Reg.isAny]

end Sys2Proof.Machine
end

