-- ==== Sys2Proof/Laws/Memory.lean ====
section
/-! SUPPORT. The laws of the source memory: reading after writing, and that a write keeps the canonical form. -/

namespace Sys2Proof.Machine

@[simp] theorem memory_read_nil (a : Nat) : Memory.read [] a = Memory.blank := rfl

@[simp] theorem memory_read_cons (k : Nat) (b : Byte) (rest : List Host.Cell) (a : Nat) :
    Memory.read ((k, b) :: rest) a = if k = a then b else Memory.read rest a := rfl

/-- The canonical form of a cons, taken apart. -/
theorem memory_wf_cons (k : Nat) (b : Byte) (rest : List Host.Cell) :
    Memory.wf ((k, b) :: rest) = true ↔
      k < sourceSize ∧ b ≠ Memory.blank ∧ (∀ c ∈ rest, k < c.1) ∧ Memory.wf rest = true := by
  simp [Memory.wf, and_assoc]

/-- Nothing is listed below the first address of a canonical memory. -/
theorem memory_read_below {m : List Host.Cell} {a : Nat} (h : ∀ c ∈ m, a < c.1) : Memory.read m a = Memory.blank := by
  induction m with
  | nil => rfl
  | cons c rest ih =>
    obtain ⟨k, b⟩ := c
    have hk : a < k := h (k, b) (by simp)
    rw [memory_read_cons, if_neg (by omega)]
    exact ih fun c hc => h c (by simp [hc])

/-- A byte written reads back; every other byte reads as before. -/
theorem memory_read_write {m : List Host.Cell} (hm : Memory.wf m = true) (a : Nat) (b : Byte) (a' : Nat) :
    Memory.read (Memory.write m a b) a' = if a' = a then b else Memory.read m a' := by
  induction m with
  | nil =>
    by_cases hb : b = Memory.blank <;> by_cases ha : a' = a <;> simp [Memory.write, hb, ha, eq_comm]
    intro h; exact absurd h.symm ha
  | cons c rest ih =>
    obtain ⟨k, d⟩ := c
    obtain ⟨_, _, hlt, hrest⟩ := (memory_wf_cons k d rest).1 hm
    have ih := ih hrest
    have low : ∀ x, x ≤ k → Memory.read rest x = Memory.blank := fun x hx =>
      memory_read_below fun c hc => Nat.lt_of_le_of_lt hx (hlt c hc)
    rcases lt_trichotomy a k with h | h | h
    · by_cases hb : b = Memory.blank <;> by_cases ha : a' = a
      · subst ha; simp [Memory.write, h, hb, show k ≠ a' by omega, low a' (by omega)]
      · simp [Memory.write, h, hb, ha]
      · subst ha; simp [Memory.write, h, hb]
      · simp [Memory.write, h, hb, ha, show a ≠ a' from fun e => ha e.symm]
    · subst h
      by_cases hb : b = Memory.blank <;> by_cases ha : a' = a
      · subst ha; simp [Memory.write, hb, low a' (by omega)]
      · simp [Memory.write, hb, ha, show a ≠ a' from fun e => ha e.symm]
      · subst ha; simp [Memory.write, hb]
      · simp [Memory.write, hb, ha, show a ≠ a' from fun e => ha e.symm]
    · simp only [Memory.write, if_neg (show ¬a < k by omega), if_neg (show ¬a = k by omega), memory_read_cons, ih]
      by_cases ha : a' = a
      · subst ha; simp [show k ≠ a' by omega]
      · simp [ha]

/-- Every address a write lists was listed before or is the one written. -/
theorem memory_write_listed {m : List Host.Cell} {a : Nat} {b : Byte} {c : Host.Cell} (h : c ∈ Memory.write m a b) :
    c = (a, b) ∨ c ∈ m := by
  induction m with
  | nil =>
    by_cases hb : b = Memory.blank
    · simp [Memory.write, hb] at h
    · simpa [Memory.write, hb] using h
  | cons d rest ih =>
    obtain ⟨k, e⟩ := d
    unfold Memory.write at h
    split at h
    · split at h
      · exact .inr h
      · exact (List.mem_cons.1 h).imp id id
    · split at h
      · split at h
        · exact .inr (List.mem_cons_of_mem _ h)
        · exact (List.mem_cons.1 h).imp id (List.mem_cons_of_mem _)
      · rcases List.mem_cons.1 h with h | h
        · exact .inr (by simp [h])
        · exact (ih h).imp id (List.mem_cons_of_mem _)

/-- A write keeps the canonical form. -/
theorem memory_wf_write {m : List Host.Cell} (hm : Memory.wf m = true) {a : Nat} (ha : a < sourceSize) (b : Byte) :
    Memory.wf (Memory.write m a b) = true := by
  induction m with
  | nil =>
    by_cases hb : b = Memory.blank
    · simp [Memory.write, hb, Memory.wf]
    · simp [Memory.write, hb, Memory.wf, ha]
  | cons c rest ih =>
    obtain ⟨k, d⟩ := c
    obtain ⟨hk, hd, hlt, hrest⟩ := (memory_wf_cons k d rest).1 hm
    unfold Memory.write
    split
    · rename_i h
      split
      · exact hm
      · rename_i hb
        refine (memory_wf_cons ..).2 ⟨ha, hb, ?_, hm⟩
        intro c hc
        rcases List.mem_cons.1 hc with rfl | hc
        · exact h
        · exact h.trans (hlt c hc)
    · split
      · rename_i h1 h2
        subst h2
        split
        · exact hrest
        · rename_i hb
          exact (memory_wf_cons ..).2 ⟨ha, hb, hlt, hrest⟩
      · refine (memory_wf_cons ..).2 ⟨hk, hd, ?_, ih hrest⟩
        intro c hc
        rcases memory_write_listed hc with rfl | hc
        · show k < a
          omega
        · exact hlt c hc

/-- A host address of 32 bits is inside the source address space. -/
theorem word_inside (a : Word) : a.toNat < sourceSize := a.isLt

end Sys2Proof.Machine
end

