-- ==== Sys2Proof/Laws/PerInstr.lean ====
section
/-! SUPPORT. The per-instruction family RowAdmits: the encoding of a well-formed instruction has the form and the fixed bits of its row of spec/opcode_table.json. -/

namespace Sys2Proof.Laws.RowAdmits

/-- The row of a well-formed instruction admits its encoding. -/
def Statement (i : Instr) : Prop := WellFormed i = true → (rowOf i).admits (encode i) = true

theorem nop : Statement .nop := fun _ => rfl
theorem init : Statement .init := fun _ => rfl
theorem compress : Statement .compress := fun _ => rfl
theorem digest : Statement .digest := fun _ => rfl
theorem hmac : Statement .hmac := fun _ => rfl
theorem keyprep : Statement .keyprep := fun _ => rfl
theorem ipad : Statement .ipad := fun _ => rfl
theorem opad : Statement .opad := fun _ => rfl
theorem illegalOp : ∀ low, Statement (.illegalOp low) := by
  unfold Statement; decide
theorem illegalRsv (rsv : BitVec 28) (op : BitVec 4) : Statement (.illegalRsv rsv op) := fun _ => by
  simp [rowOf, encode, Row.admits]
theorem ff : ∀ j, Statement (.ff j) := by unfold Statement; decide
theorem gg : ∀ j, Statement (.gg j) := by unfold Statement; decide
theorem hh : ∀ j, Statement (.hh j) := by unfold Statement; decide
theorem ii : ∀ j, Statement (.ii j) := by unfold Statement; decide

end Sys2Proof.Laws.RowAdmits
end

