-- ==== Sys2Proof/Laws/Reads.lean ====
section
/-! SUPPORT. What a read of source bytes answers: the bytes where every address answers, none where one does not. -/

namespace Sys2Proof.Machine

@[simp] theorem memRead_zero (s : State) (a : Nat) : s.memRead a 0 = some [] := rfl

theorem memRead_succ (s : State) (a n : Nat) :
    s.memRead a (n + 1) = if s.busOk a then (s.memRead (a + 1) n).map (s.sourceByte a :: ·) else none := rfl

/-- A read answers bytes exactly when every address answers, and then byte i is that of address a + i. -/
theorem memRead_eq_some_iff (s : State) (a n : Nat) (m : List Byte) :
    s.memRead a n = some m ↔
      (∀ i, i < n → s.busOk (a + i) = true) ∧ m = (List.range n).map fun i => s.sourceByte (a + i) := by
  induction n generalizing a m with
  | zero =>
    rw [memRead_zero, Option.some.injEq]
    exact ⟨fun h => ⟨fun i hi => absurd hi (Nat.not_lt_zero i), h.symm⟩, fun h => h.2.symm⟩
  | succ n ih =>
    rw [memRead_succ]
    by_cases h : s.busOk a = true
    · simp only [h, if_true, Option.map_eq_some_iff, ih, List.range_succ_eq_map, List.map_cons, List.map_map, Nat.add_zero]
      constructor
      · rintro ⟨t, ⟨hok, rfl⟩, rfl⟩
        refine ⟨fun i hi => ?_, by simp [Function.comp_def, Nat.add_right_comm, Nat.add_assoc]⟩
        cases i with
        | zero => exact h
        | succ i => simpa [Nat.add_assoc, Nat.add_comm 1] using hok i (by omega)
      · rintro ⟨hok, rfl⟩
        refine ⟨_, ⟨fun i hi => ?_, rfl⟩, by simp [Function.comp_def, Nat.add_right_comm, Nat.add_assoc]⟩
        simpa [Nat.add_assoc, Nat.add_comm 1] using hok (i + 1) (by omega)
    · simp only [h, if_false, Bool.false_eq_true, reduceCtorEq, false_iff, not_and]
      intro hok
      exact absurd (hok 0 (by omega)) h

/-- A read answers none exactly when some address does not answer. -/
theorem memRead_eq_none_iff (s : State) (a n : Nat) :
    s.memRead a n = none ↔ ∃ i, i < n ∧ s.busOk (a + i) = false := by
  rw [Option.eq_none_iff_forall_ne_some]
  simp only [ne_eq, memRead_eq_some_iff, not_and]
  constructor
  · intro h
    by_contra hc
    push Not at hc
    exact h _ (fun i hi => by simpa using hc i hi) rfl
  · rintro ⟨i, hi, hf⟩ m hok
    simp [hok i hi] at hf

/-- A read of n bytes answers n bytes. -/
theorem memRead_length {s : State} {a n : Nat} {m : List Byte} (h : s.memRead a n = some m) : m.length = n := by
  simp [((memRead_eq_some_iff ..).1 h).2]

/-- What a read answers does not depend on registers: only on memory, races, side effects, BUS_OK and the draw. -/
theorem memRead_congr {s t : State} (hm : t.mem = s.mem) (hr : t.racing = s.racing) (hd : t.device = s.device)
    (ha : t.absent = s.absent) (hn : t.draws = s.draws) (a n : Nat) : t.memRead a n = s.memRead a n := by
  have hok : ∀ a, t.busOk a = s.busOk a := fun a => by simp [State.busOk, ha]
  have hb : ∀ a, t.sourceByte a = s.sourceByte a := fun a => by simp [State.sourceByte, hd, hn, hr, hm]
  induction n generalizing a with
  | zero => rfl
  | succ n ih => simp [memRead_succ, hok, hb, ih]

/-- A region meets `a .. a+n-1` exactly when it has one of its addresses. -/
theorem region_meets_iff (r : Region) (a n : Nat) : r.meets a n = true ↔ ∃ i, i < n ∧ r.has (a + i) = true := by
  simp only [Region.meets, Region.has, decide_eq_true_eq, Bool.and_eq_true]
  constructor
  · intro h
    exact ⟨max r.base a - a, by omega, by omega, by omega⟩
  · rintro ⟨i, hi, h1, h2⟩
    omega

/-- A region of source bytes includes an address with read side effects (20_memory.md R68). -/
theorem meetsDevice_iff (s : State) (a n : Nat) :
    s.meetsDevice a n = true ↔ ∃ i, i < n ∧ s.device.any (fun r => r.has (a + i)) = true := by
  simp only [State.meetsDevice, List.any_eq_true, region_meets_iff]
  constructor
  · rintro ⟨r, hr, i, hi, h⟩
    exact ⟨i, hi, r, hr, h⟩
  · rintro ⟨i, hi, r, hr, h⟩
    exact ⟨r, hr, i, hi, h⟩

end Sys2Proof.Machine
end

