-- ==== Sys2Proof/Laws/Step.lean ====
section
/-! SUPPORT. Everything a step can do, said once: a host access takes its effect, and an engine move is nothing, a completion, or a move of a step-level run that keeps all but the engine's registers. -/

namespace Sys2Proof.Machine

/-- Only a 32-bit access selects a register (20_memory.md R64). -/
theorem selectReg_width {base width addr : Nat} {r : WindowReg} (h : selectReg base width addr = some r) : width = 4 := by
  unfold selectReg at h
  split at h
  · rename_i hc
    exact hc.1
  · cases h

/-- A step whose input is a host write of a window register. -/
theorem step_write {s : State} {r : WindowReg} {v : Word} {rest : List Input} (h : WritesReg s r v rest) :
    step s = .next (hostWrite r v { s with inputs := rest }) := by
  obtain ⟨a, hr, hi⟩ := h
  simp [step, hi, hostAccess, hr]

/-- A step whose input is a host read of a window register. -/
theorem step_read {s : State} {r : WindowReg} {rest : List Input} (h : ReadsReg s r rest) :
    step s = .next (hostRead r { s with inputs := rest }) := by
  obtain ⟨a, hr, hi⟩ := h
  simp [step, hi, hostAccess, hr]

@[simp] theorem run_zero (s : State) : Host.Core.run core 0 s = .next s := rfl

/-- A run whose first step answers a next state goes on from there. -/
theorem run_next {s t : State} (h : step s = .next t) (k : Nat) :
    Host.Core.run core (k + 1) s = Host.Core.run core k t := by
  have hc : core.step s = .next t := h
  simp only [Host.Core.run, hc]

/-- What a move inside a step-level run keeps: STATUS, the host's registers, DIGEST, the latched word, the platform
and the coming inputs; the engine stays BUSY. -/
structure MoveKeeps (s t : State) : Prop where
  busy : t.busy = true
  status : t.status = s.status
  ie : t.ie = s.ie
  msgAddr : t.msgAddr = s.msgAddr
  msgLen : t.msgLen = s.msgLen
  keyAddr : t.keyAddr = s.keyAddr
  keyLen : t.keyLen = s.keyLen
  digest : t.digest = s.digest
  cmd : t.cmd = s.cmd
  mem : t.mem = s.mem
  absent : t.absent = s.absent
  device : t.device = s.device
  mmioBase : t.mmioBase = s.mmioBase
  racing : t.racing = s.racing
  inputs : t.inputs = s.inputs
  rdata : t.rdata = s.rdata

/-- The results of a completion `complete e u` of instruction `i` from `s`: DIGEST is kept, or `i` is DIGEST or HMAC
without an error and ACC holds the same words. -/
def DigestRule (i : Instr) (e : ErrCode) (s u : State) : Prop :=
  u.digest = s.digest ∨ (i = .digest ∨ i = .hmac) ∧ e = .none ∧ u.acc = u.digest

/-- A completion of the running command: what a command may have changed before it is in `u`. -/
def Completes (i : Instr) (s t : State) : Prop :=
  ∃ e u, SameControl s u ∧ DigestRule i e s u ∧ t = complete e u

theorem Completes.of {i : Instr} {e : ErrCode} {s u : State} (hc : SameControl s u) (hd : DigestRule i e s u) :
    Completes i s (complete e u) := ⟨e, u, hc, hd, rfl⟩

/-- A host command's effect is a completion. -/
theorem exec_completes {i : Instr} (hi : isRound i = false) (s : State) :
    ∃ t, exec i s = .next t ∧ Completes i s t := by
  cases i with
  | nop => exact ⟨_, exec_nop s, .of (.refl s) (.inl rfl)⟩
  | init => exact ⟨_, exec_init s, .of (by constructor <;> rfl) (.inl rfl)⟩
  | compress => exact ⟨_, exec_compress s, .of (by constructor <;> rfl) (.inl rfl)⟩
  | digest =>
    by_cases he : s.digestError = .none
    · cases hm : s.message with
      | some m => exact ⟨_, exec_digest_ok he hm, .of (by constructor <;> rfl) (.inr ⟨.inl rfl, rfl, rfl⟩)⟩
      | none => exact ⟨_, exec_digest_bus he hm, .of (by constructor <;> rfl) (.inl rfl)⟩
    · exact ⟨_, exec_digest_check he, .of (.refl s) (.inl rfl)⟩
  | hmac =>
    by_cases he : s.hmacError = .none
    · cases hk : s.key with
      | none => exact ⟨_, exec_hmac_bus he (.inl hk), .of (by constructor <;> rfl) (.inl rfl)⟩
      | some k =>
        cases hm : s.message with
        | some m => exact ⟨_, exec_hmac_ok he hk hm, .of (by constructor <;> rfl) (.inr ⟨.inr rfl, rfl, rfl⟩)⟩
        | none => exact ⟨_, exec_hmac_bus he (.inr hm), .of (by constructor <;> rfl) (.inl rfl)⟩
    · exact ⟨_, exec_hmac_check he, .of (.refl s) (.inl rfl)⟩
  | keyprep =>
    by_cases he : s.keyError = .none
    · cases hk : s.key with
      | none => exact ⟨_, exec_keyprep_bus he hk, .of (by constructor <;> rfl) (.inl rfl)⟩
      | some k =>
        refine ⟨_, exec_keyprep_ok he hk, ?_⟩
        unfold finishKeyprep
        split
        · exact (.of (by constructor <;> rfl) (.inl rfl))
        · exact (.of (by constructor <;> rfl) (.inl rfl))
    · exact ⟨_, exec_keyprep_check he, .of (.refl s) (.inl rfl)⟩
  | ipad => exact ⟨_, exec_ipad s, .of (by constructor <;> rfl) (.inl rfl)⟩
  | opad => exact ⟨_, exec_opad s, .of (by constructor <;> rfl) (.inl rfl)⟩
  | illegalOp low => exact ⟨_, exec_illegalOp low s, .of (.refl s) (.inl rfl)⟩
  | illegalRsv rsv op => exact ⟨_, exec_illegalRsv rsv op s, .of (.refl s) (.inl rfl)⟩
  | ff j => cases hi
  | gg j => cases hi
  | hh j => cases hi
  | ii j => cases hi

theorem wholeEffect_completes (s : State) : ∃ t, wholeEffect s = .next t ∧ Completes (decodeCmd s.cmd) s t :=
  exec_completes (isRound_decodeCmd s.cmd) s

/-- A move from acceptance into a step-level run. -/
theorem beginStepLevel_keeps {s t : State} (h : beginStepLevel s = some t) : MoveKeeps s t ∧ t.stage = .blockStart := by
  unfold beginStepLevel at h
  split at h
  · split at h
    · cases h; exact ⟨by constructor <;> rfl, rfl⟩
    · cases h
  · split at h
    · cases h; exact ⟨by constructor <;> rfl, rfl⟩
    · cases h
  · split at h
    · cases h; exact ⟨by constructor <;> rfl, rfl⟩
    · cases h
  · split at h
    · split at h
      · cases h; exact ⟨by constructor <;> rfl, rfl⟩
      · obtain ⟨k, -, rfl⟩ := Option.map_eq_some_iff.1 h
        exact ⟨by constructor <;> rfl, rfl⟩
    · cases h
  · cases h

theorem loadChain_keeps (x : Vector Reg 16) (s : State) : MoveKeeps s (loadChain { s with xbuf := x }) := by
  constructor <;> rfl

/-- A block's start. -/
theorem startBlock_keeps {s t : State} (h : startBlock s = some t) : MoveKeeps s t ∧ t.stage = .rounds := by
  unfold startBlock at h
  split at h
  · split at h
    · rw [← Option.some.inj h]; exact ⟨loadChain_keeps s.xbuf s, rfl⟩
    · obtain ⟨m, -, rfl⟩ := Option.map_eq_some_iff.1 h
      exact ⟨loadChain_keeps _ s, rfl⟩
    · cases h
  · cases h

/-- The end of a pass: the next pass, or a completion. -/
theorem endPass_cases {d : Quad} {s t : State} {j : Job} (hj : s.job = some j) (h : endPass d s j = some t) :
    (MoveKeeps s t ∧ t.stage = .blockStart) ∨ Completes (decodeCmd s.cmd) s t := by
  unfold endPass at h
  split at h
  · cases h
  · split at h
    · cases h
    · cases h
      refine .inr (.of ?_ (.inr ⟨.inl ?_, rfl, rfl⟩))
      · constructor <;> rfl
      · unfold State.job at hj
        cases hi : decodeCmd s.cmd <;> simp_all [jobOf]
  · split at h
    · cases h
    · cases h
      exact .inr (.of (by constructor <;> rfl) (.inl rfl))
  · split at h
    · cases h; exact .inl ⟨by constructor <;> rfl, rfl⟩
    · cases h; exact .inl ⟨by constructor <;> rfl, rfl⟩
    · split at h
      · cases h
      · cases h
        refine .inr (.of ?_ (.inr ⟨.inr ?_, rfl, rfl⟩))
        · constructor <;> rfl
        · unfold State.job at hj
          cases hi : decodeCmd s.cmd <;> simp_all [jobOf]

/-- A block's end: the next block, the next pass, or a completion. -/
theorem endBlock_cases {s t : State} (h : endBlock s = some t) :
    (MoveKeeps s t ∧ t.stage = .blockStart) ∨ Completes (decodeCmd s.cmd) s t := by
  unfold endBlock at h
  split at h
  · cases h; exact .inr (.of (by constructor <;> rfl) (.inl rfl))
  · rename_i j hj hjob
    obtain ⟨m, -, hm⟩ := Option.bind_eq_some_iff.1 h
    split at hm
    · cases hm; exact .inl ⟨by constructor <;> rfl, rfl⟩
    · exact endPass_cases hjob hm
  · cases h

theorem orWhole_cases {move : Option State} {s t : State} (h : orWhole move s = .next t) :
    move = some t ∨ Completes (decodeCmd s.cmd) s t := by
  unfold orWhole at h
  split at h
  · cases h; exact .inl rfl
  · obtain ⟨t', ht, hc⟩ := wholeEffect_completes s
    rw [ht] at h; cases h; exact .inr hc

theorem stageAfterStep_busy (i : BitVec 6) (p : Stage) : (stageAfterStep i p).busy = p.busy := by
  cases p <;> first | rfl | skip
  simp only [stageAfterStep]
  split <;> rfl

theorem roundStep_keeps (fn : Word → Word → Word → Word) (i : BitVec 6) {s : State} (hb : s.busy = true) :
    MoveKeeps s (roundStep fn i s) := by
  constructor
  · exact (stageAfterStep_busy i s.stage).trans hb
  all_goals rfl

/-- Everything an engine move can do. -/
theorem engineMove_cases {s t : State} (h : engineMove s = .next t) :
    (s.stage = .idle ∧ t = s) ∨ (s.busy = true ∧ MoveKeeps s t) ∨
      (s.busy = true ∧ Completes (decodeCmd s.cmd) s t) := by
  unfold engineMove at h
  have busy : ∀ p, s.stage = p → p ≠ .idle → s.busy = true := by
    rintro p hp hn; unfold State.busy; rw [hp]; cases p <;> first | rfl | exact absurd rfl hn
  split at h <;> rename_i hs
  · cases h; exact .inl ⟨hs, rfl⟩
  · obtain ⟨t', ht, hc⟩ := wholeEffect_completes s
    rw [ht] at h; cases h; exact .inr (.inr ⟨busy _ hs (by simp), hc⟩)
  · rcases orWhole_cases h with hm | hc
    · exact .inr (.inl ⟨busy _ hs (by simp), (startBlock_keeps hm).1⟩)
    · exact .inr (.inr ⟨busy _ hs (by simp), hc⟩)
  · rw [exec_decodeStep] at h; cases h
    exact .inr (.inl ⟨busy _ hs (by simp), roundStep_keeps _ _ (busy _ hs (by simp))⟩)
  · rcases orWhole_cases h with hm | hc
    · rcases endBlock_cases hm with hk | hc
      · exact .inr (.inl ⟨busy _ hs (by simp), hk.1⟩)
      · exact .inr (.inr ⟨busy _ hs (by simp), hc⟩)
    · exact .inr (.inr ⟨busy _ hs (by simp), hc⟩)

/-- The same of a move that may start a step-level run. -/
theorem microMove_cases {s t : State} (h : microMove s = .next t) :
    (s.stage = .idle ∧ t = s) ∨ (s.busy = true ∧ MoveKeeps s t) ∨
      (s.busy = true ∧ Completes (decodeCmd s.cmd) s t) := by
  unfold microMove at h
  split at h
  · rename_i hs
    have hb : s.busy = true := by unfold State.busy; rw [hs]; rfl
    rcases orWhole_cases h with hm | hc
    · exact .inr (.inl ⟨hb, (beginStepLevel_keeps hm).1⟩)
    · exact .inr (.inr ⟨hb, hc⟩)
  all_goals exact engineMove_cases h

/-- Everything a step can do: `u` is the state with the taken input removed. -/
theorem step_cases {s t : State} (h : step s = .next t) :
    (∃ rest, s.inputs = .reset :: rest ∧ t = resetBlock { s with inputs := rest }) ∨
    (∃ a b rest, s.inputs = .store a b :: rest ∧ t = storeByte a b { s with inputs := rest }) ∨
    (∃ r v rest, WritesReg s r v rest ∧ t = hostWrite r v { s with inputs := rest }) ∨
    (∃ r rest, ReadsReg s r rest ∧ t = hostRead r { s with inputs := rest }) ∨
    (∃ rest, s.inputs = .wait :: rest ∧ s.busy = false ∧ t = deliver s.statusWord { s with inputs := rest }) ∨
    (∃ i, (engineMove { s with inputs := i } = .next t ∨ microMove { s with inputs := i } = .next t) ∧
      ∀ rest, s.inputs ≠ .reset :: rest) := by
  unfold step at h
  split at h <;> rename_i hi
  · exact .inr (.inr (.inr (.inr (.inr ⟨s.inputs, .inl h, by simp [hi]⟩))))
  · rename_i rest
    exact .inr (.inr (.inr (.inr (.inr ⟨rest, .inl h, by simp [hi]⟩))))
  · rename_i rest
    exact .inr (.inr (.inr (.inr (.inr ⟨rest, .inr h, by simp [hi]⟩))))
  · split at h
    · exact .inr (.inr (.inr (.inr (.inr ⟨s.inputs, .inl h, by simp [hi]⟩))))
    · rename_i rest hb
      cases h
      exact .inr (.inr (.inr (.inr (.inl ⟨rest, hi, by simpa using hb, rfl⟩))))
  · rename_i a rest
    cases a with
    | read w addr =>
      simp only [hostAccess] at h
      split at h
      · rename_i r hr
        cases h
        obtain rfl := selectReg_width hr
        exact .inr (.inr (.inr (.inl ⟨r, rest, ⟨addr, hr, hi⟩, rfl⟩)))
      · cases h
    | write w addr v =>
      simp only [hostAccess] at h
      split at h
      · rename_i r hr
        cases h
        obtain rfl := selectReg_width hr
        exact .inr (.inr (.inl ⟨r, v, rest, ⟨addr, hr, hi⟩, rfl⟩))
      · cases h
  · cases h
    exact .inr (.inl ⟨_, _, _, hi, rfl⟩)
  · cases h
    exact .inl ⟨_, hi, rfl⟩

end Sys2Proof.Machine
end

