-- ==== Sys2Proof/Machine/HostProgram.lean ====
section
/-! DEFINITION. The host's operations and pseudo-operations as inputs (30_encoding.md R90, R91); `base` is MMIO_BASE. -/

namespace Sys2Proof.Machine.HostProgram

/-- `wr NAME, v` (30_encoding.md R90). -/
def wr (base : Nat) (r : WindowReg) (v : Word) : Input := .access (.write 4 (base + r.offset) v)

/-- `rd NAME -> x` (30_encoding.md R90). -/
def rd (base : Nat) (r : WindowReg) : Input := .access (.read 4 (base + r.offset))

/-- `mem a, [b0, b1, ...]` (30_encoding.md R90). DESIGN CHOICE (log 24): the spec is silent on a byte past address
0xFFFFFFFF; the next one goes to address 0. -/
def mem (a : Word) : List Byte → List Input
  | [] => []
  | b :: rest => .store a b :: mem (a + 1) rest

/-- `cmd OP` (30_encoding.md R91). -/
def cmd (base : Nat) (op : BitVec 4) : Input := wr base .cmd (op.setWidth 32)

/-- `ack` (30_encoding.md R91). -/
def ack (base : Nat) : Input := wr base .status 0x0000000E

/-- `ldblk v0, ..., v15` (30_encoding.md R91). -/
def ldblk (base : Nat) (v : Block) : List Input := (List.finRange 16).map fun j => wr base (.xbuf j) v[j]

/-- `ldacc a, b, c, d` (30_encoding.md R91). -/
def ldacc (base : Nat) (v : Quad) : List Input := (List.finRange 4).map fun j => wr base (.acc j) v[j]

/-- `rddig -> d0, d1, d2, d3` (30_encoding.md R91). -/
def rddig (base : Nat) : List Input := (List.finRange 4).map fun j => rd base (.digest j)

end Sys2Proof.Machine.HostProgram
end

