-- ==== Sys2Proof/Tests/Slice0.lean ====
section
/-! SUPPORT. The model's own tests: the WellFormed smoke test, a decoding of every constructor from a word written out from spec/30_encoding.md, one-step tests with the values of spec/95_test_vectors.md, and a witness for every obligation that has hypotheses. -/

open Sys2Proof
open Sys2Proof.Machine

namespace Sys2Proof.Tests

/-! ### Helpers -/

/-- The outcome is a next state for which `p` holds. -/
def answers (o : Outcome) (p : State → Bool) : Bool :=
  match o with
  | .next t => p t
  | .fault _ => false
  | .refused _ => false

theorem of_answers {o : Outcome} {p : State → Bool} (h : answers o p = true) : ∃ t, o = .next t ∧ p t = true := by
  cases o with
  | next t => exact ⟨t, rfl, h⟩
  | fault r => cases h
  | refused r => cases h

/-- Idle after reset, with `l` the coming inputs. -/
def idle (l : List Input) : State := { State.reset with inputs := l }

/-- BUSY with command word `w` just accepted after reset, with `l` the coming inputs. -/
def busy (w : Word) (l : List Input) : State := { accept w State.reset with inputs := l }

/-- A host write and a host read at a window offset; MMIO_BASE is 0 after reset. -/
def wrAt (o : Nat) (v : Word) : Input := .access (.write 4 o v)
def rdAt (o : Nat) : Input := .access (.read 4 o)

/-- The message region. -/
def withMessage (a n : Word) (s : State) : State := { s with msgAddr := a, msgLen := n }

/-- The key region. -/
def withKey (a n : Word) (s : State) : State := { s with keyAddr := a, keyLen := n }

/-- Bytes stored at consecutive addresses. -/
def withBytes (a : Nat) : List Byte → State → State
  | [], s => s
  | b :: rest, s => withBytes (a + 1) rest { s with mem := Memory.write s.mem a b }

/-- Known register contents written as numbers. -/
def quad (a b c d : Word) : Vector Reg 4 := #v[.known a, .known b, .known c, .known d]

/-- The words of "abc" (95_test_vectors.md V-L1-2). -/
def abcWords : Vector Reg 4 := quad 0x98500190 0xB04FD23C 0x7D3F96D6 0x727FE128

/-- The registers of 95_test_vectors.md V-CC-11 to V-CC-15: W and X[j] = j * 0x01010101, in the rounds of a block. -/
def roundState (i : BitVec 6) : State :=
  { accept 2 State.reset with
    stage := .rounds, stepIdx := i, work := ⟨0x01234567, 0x89ABCDEF, 0xFEDCBA98, 0x76543210⟩
    xbuf := Vector.ofFn fun j => .known (BitVec.ofNat 32 (j.val * 0x01010101)) }

/-! ### WellFormed: the one check refuses an ill-formed term -/

theorem test_wellFormed_refuses_rsv_zero : WellFormed (.illegalRsv 0 3) = false := by decide

theorem test_wellFormed_admits_rsv_one : WellFormed (.illegalRsv 1 3) = true := by decide

/-! ### Decoding words written out from 30_encoding.md R81, R82, R85, R86 -/

/-- RSV[31:4] = 0, OP = 0000. -/
theorem test_decode_nop : decodeTableWord 32 0b00000000000000000000000000000000 = some .nop := by decide

theorem test_decode_init : decodeTableWord 32 0b00000000000000000000000000000001 = some .init := by decide

theorem test_decode_compress : decodeTableWord 32 0b00000000000000000000000000000010 = some .compress := by decide

theorem test_decode_digest : decodeTableWord 32 0b00000000000000000000000000000011 = some .digest := by decide

theorem test_decode_hmac : decodeTableWord 32 0b00000000000000000000000000000100 = some .hmac := by decide

theorem test_decode_keyprep : decodeTableWord 32 0b00000000000000000000000000000101 = some .keyprep := by decide

theorem test_decode_ipad : decodeTableWord 32 0b00000000000000000000000000000110 = some .ipad := by decide

theorem test_decode_opad : decodeTableWord 32 0b00000000000000000000000000000111 = some .opad := by decide

/-- OP = 1010, RSV = 0: a reserved opcode. -/
theorem test_decode_illegalOp : decodeTableWord 32 0b00000000000000000000000000001010 = some (.illegalOp 0b010) := by decide

/-- RSV's lowest bit 4 and its highest bit 31 each make the word illegal, whatever OP. -/
theorem test_decode_illegalRsv :
    decodeTableWord 32 0b00000000000000000000000000010011 = some (.illegalRsv 1 0b0011) ∧
    decodeTableWord 32 0b10000000000000000000000000001000 = some (.illegalRsv 0x8000000 0b1000) := by decide

/-- RND = 00, J = 0101. -/
theorem test_decode_ff : decodeTableWord 8 0b00000101 = some (.ff 5) := by decide

/-- RND = 01, J = 0000. -/
theorem test_decode_gg : decodeTableWord 8 0b00010000 = some (.gg 0) := by decide

/-- RND = 10, J = 1111. -/
theorem test_decode_hh : decodeTableWord 8 0b00101111 = some (.hh 15) := by decide

/-- RND = 11, J = 1000. -/
theorem test_decode_ii : decodeTableWord 8 0b00111000 = some (.ii 8) := by decide

/-- No step index above 63 exists (R87). -/
theorem test_decode_no_step_64 : decodeBytes .step6 [64] = .error .badStepIndex := by decide

/-! ### One step of each instruction; each value is 95_test_vectors.md's -/

/-- V-CM-1; and NOP does not clear OVR (44_commands.md R180). -/
theorem test_nop :
    answers (step (busy 0x00000000 [])) (fun t => t.statusWord = 0x00000002) ∧
    answers (step { busy 0 [] with status := ⟨false, false, true, .none⟩ }) (fun t => t.statusWord = 0x0000000A) := by
  decide +kernel

/-- V-CM-2. -/
theorem test_init :
    answers (step { busy 0x00000001 [] with acc := quad 0 0 0 0 })
      (fun t => t.statusWord = 0x00000002 ∧ t.acc = quad 0x67452301 0xEFCDAB89 0x98BADCFE 0x10325476) := by
  decide +kernel

/-- V-CC-16: the zero block from IV. -/
theorem test_compress_zero_block :
    answers (step (busy 0x00000002 []))
      (fun t => t.acc = quad 0x031F1DAC 0x6EA58ED0 0x1FAB67B7 0x74317791 ∧ t.xbuf = Vector.replicate 16 (.known 0)) := by
  decide +kernel

/-- V-CC-17: the all-ones block from the zero accumulators. -/
theorem test_compress_ones_block :
    answers (step { busy 2 [] with acc := quad 0 0 0 0, xbuf := Vector.replicate 16 (.known 0xFFFFFFFF) })
      (fun t => t.acc = quad 0xE0317343 0xA301BECB 0xC156FA57 0x9083016F) := by
  decide +kernel

/-- V-CM-7: one byte at the top of the source space. -/
theorem test_digest_top_byte :
    answers (step (withBytes 0xFFFFFFFF [0x61] (withMessage 0xFFFFFFFF 1 (busy 0x00000003 []))))
      (fun t => t.statusWord = 0x00000002 ∧ t.digest = quad 0xB975C10C 0xA8B6F1C0 0xE299C331 0x61267769 ∧
        t.acc = t.digest ∧ t.xbuf = anyBlock) := by
  decide +kernel

/-- V-CM-13: BUS_ERR. -/
theorem test_digest_bus_error :
    answers (step { withMessage 0x100 4 (busy 0x00000003 []) with absent := [⟨0x102, 1⟩] })
      (fun t => t.statusWord = 0x00000046 ∧ t.digest = Vector.replicate 4 (.known 0) ∧ t.acc = anyQuad) := by
  decide +kernel

/-- The fox message of V-L1-7. -/
def fox : List Byte :=
  [0x54, 0x68, 0x65, 0x20, 0x71, 0x75, 0x69, 0x63, 0x6B, 0x20, 0x62, 0x72, 0x6F, 0x77, 0x6E, 0x20, 0x66, 0x6F, 0x78, 0x20,
   0x6A, 0x75, 0x6D, 0x70, 0x73, 0x20] ++
  [0x6F, 0x76, 0x65, 0x72, 0x20, 0x74, 0x68, 0x65, 0x20, 0x6C, 0x61, 0x7A, 0x79, 0x20, 0x64, 0x6F, 0x67]

/-- V-L1-7 and V-HM-9: key "key". -/
theorem test_hmac_fox :
    answers (step (withBytes 0x2000 [0x6B, 0x65, 0x79]
        (withBytes 0x3000 fox (withKey 0x2000 3 (withMessage 0x3000 43 (busy 0x00000004 []))))))
      (fun t => t.statusWord = 0x00000002 ∧ t.digest = quad 0x13070780 0x49773E46 0xC22D0CB9 0x75E21149 ∧
        t.kbuf[0] = .known 0x0079656B ∧ t.kbuf[1] = .known 0) := by
  decide +kernel

/-- V-CM-12: the key's ADDR_RANGE before the message's TOO_LARGE. -/
theorem test_hmac_check_order :
    answers (step (withKey 0xFFFFFFF0 0x20 (withMessage 0 0x20000000 (busy 0x00000004 []))))
      (fun t => t.statusWord = 0x00000036 ∧ t.kbuf = Vector.replicate 16 (.known 0)) := by
  decide +kernel

/-- V-CM-18: a short key. -/
theorem test_keyprep_short :
    answers (step (withBytes 0x2000 [0x6B, 0x65, 0x79] (withKey 0x2000 3 (busy 0x00000005 []))))
      (fun t => t.kbuf[0] = .known 0x0079656B ∧ t.kbuf[15] = .known 0 ∧ t.acc = State.reset.acc) := by
  decide +kernel

/-- V-CM-19: an 80-byte key is digested. -/
theorem test_keyprep_long :
    answers (step (withBytes 0x2000 (List.replicate 80 0xAA) (withKey 0x2000 80 (busy 0x00000005 []))))
      (fun t => t.kbuf[0] = .known 0x01ABB68F ∧ t.kbuf[3] = .known 0x661BDC73 ∧ t.kbuf[4] = .known 0 ∧ t.acc = anyQuad) := by
  decide +kernel

/-- V-HM-9: the ipad block of "key". -/
theorem test_ipad :
    answers (step { busy 0x00000006 [] with kbuf := (Vector.replicate 16 (.known 0)).set 0 (.known 0x0079656B) })
      (fun t => t.xbuf = (Vector.replicate 16 (.known 0x36363636)).set 0 (.known 0x364F535D)) := by
  decide +kernel

/-- V-HM-9: the opad block of "key". -/
theorem test_opad :
    answers (step { busy 0x00000007 [] with kbuf := (Vector.replicate 16 (.known 0)).set 0 (.known 0x0079656B) })
      (fun t => t.xbuf = (Vector.replicate 16 (.known 0x5C5C5C5C)).set 0 (.known 0x5C253937)) := by
  decide +kernel

/-- V-CM-15. -/
theorem test_illegalOp : answers (step (busy 0x00000008 [])) (fun t => t.statusWord = 0x00000016) := by decide +kernel

/-- V-CM-14: DIGEST is not run. -/
theorem test_illegalRsv :
    answers (step (busy 0x00000013 [])) (fun t => t.statusWord = 0x00000016 ∧ t.digest = State.reset.digest) := by
  decide +kernel

/-- V-CC-11: step 0. -/
theorem test_ff :
    answers (step (roundState 0))
      (fun t => t.work = ⟨0x76543210, 0x3EFE09DA, 0x89ABCDEF, 0xFEDCBA98⟩ ∧ t.stepIdx = 1 ∧ t.stage = .rounds) := by
  decide +kernel

/-- V-CC-12: step 16. -/
theorem test_gg :
    answers (step (roundState 16)) (fun t => t.work = ⟨0x76543210, 0xA30A583F, 0x89ABCDEF, 0xFEDCBA98⟩) := by
  decide +kernel

/-- V-CC-13: step 32. -/
theorem test_hh :
    answers (step (roundState 32)) (fun t => t.work = ⟨0x76543210, 0xFE085F3F, 0x89ABCDEF, 0xFEDCBA98⟩) := by
  decide +kernel

/-- V-CC-14: step 48. -/
theorem test_ii_first :
    answers (step (roundState 48)) (fun t => t.work = ⟨0x76543210, 0xBAA3968A, 0x89ABCDEF, 0xFEDCBA98⟩) := by
  decide +kernel

/-- V-CC-15: step 63, which ends the rounds. -/
theorem test_ii_last :
    answers (step (roundState 63))
      (fun t => t.work = ⟨0x76543210, 0xB8B97342, 0x89ABCDEF, 0xFEDCBA98⟩ ∧ t.stepIdx = 0 ∧ t.stage = .feedForward) := by
  decide +kernel

/-! ### The round functions, the rotation, the codec and the padder -/

/-- V-RF-4. -/
theorem test_round_functions :
    roundF 0x12345678 0x9ABCDEF0 0x0F1E2D3C = 0x1F3E7F74 ∧ roundG 0x12345678 0x9ABCDEF0 0x0F1E2D3C = 0x92B4D6F8 ∧
    roundH 0x12345678 0x9ABCDEF0 0x0F1E2D3C = 0x8796A5B4 ∧ roundI 0x12345678 0x9ABCDEF0 0x0F1E2D3C = 0x6849080B := by
  decide

/-- V-RT-3, V-RT-6. -/
theorem test_rotl32 : rotl32 0x12345678 23 = 0x3C091A2B ∧ rotl32 0x80000000 1 = 0x00000001 := by decide

/-- V-WC-1, V-WC-6. -/
theorem test_bytesToWords :
    bytesToWords [1, 2, 3, 4, 5] = [0x04030201, 0x00000005] ∧ bytesToWords [0xFF, 0, 0, 0x80] = [0x800000FF] := by decide

/-- V-WC-4, and a bit length that is no whole byte (93 U10). -/
theorem test_wordsToBytes :
    wordsToBytes [0x04030201, 0x00000005] 40 = some [1, 2, 3, 4, 5] ∧ wordsToBytes [0x04030201] 9 = none := by decide

/-- V-PD-3, V-PD-4, V-PD-8: the sizes on both sides of a block boundary. -/
theorem test_pad_sizes :
    padZeros 55 = 0 ∧ blockCount 55 = 1 ∧ padZeros 56 = 63 ∧ blockCount 56 = 2 ∧ padZeros 120 = 63 ∧ blockCount 120 = 3 := by
  decide

/-! ### Witnesses: each obligation's hypotheses are met together by a concrete state and operands -/

theorem witness_DecodeOfEncode : WellFormed (.illegalRsv 0x8000000 8) = true ∧ WellFormed (.ii 15) = true := by decide

theorem witness_PlacedWordRuns :
    decodeTableWord 32 0x13 = some (.illegalRsv 1 3) ∧ decodeTableWord 8 0x3F = some (.ii 15) := by decide

theorem witness_StepRunsTheDecodedInstruction :
    ((busy 3 []).inputs = [] ∧ (busy 3 []).stage = .accepted) ∧
    ((roundState 63).inputs = [] ∧ (roundState 63).stage = .rounds) ∧
    (busy 3 [.engine, .wait]).inputs = .engine :: [.wait] := by decide

/-- 2^29 is TOO_LARGE and 2^29 - 1 is not; a + n = 2^32 + 1 is ADDR_RANGE and 2^32 is not (44_commands.md R183). -/
theorem witness_DigestFollowsItsRule_checks :
    answers (exec .digest (withMessage 0 0x20000000 (busy 3 []))) (fun t => t.status.ecode = .tooLarge) ∧
    (withMessage 0 0x1FFFFFFF (busy 3 [])).digestError = .none ∧
    answers (exec .digest (withMessage 0xFFFFFFFF 2 (busy 3 []))) (fun t => t.status.ecode = .addrRange) ∧
    (withMessage 0xFFFFFFFF 1 (busy 3 [])).digestError = .none := by decide +kernel

/-- BUS_OK false on the region's last byte; BUS_OK true on a region and on the empty region; a region without side
effects and one with. -/
theorem witness_DigestFollowsItsRule_reads :
    ¬ BusOkOn { busy 3 [] with absent := [⟨0x103, 1⟩] } 0x100 4 ∧ BusOkOn (busy 3 []) 0x100 4 ∧
    BusOkOn (busy 3 []) 0x100 0 ∧ NoSideEffects (busy 3 []) 0x100 4 ∧
    ¬ NoSideEffects { busy 3 [] with device := [⟨0x103, 1⟩] } 0x100 4 := by
  unfold BusOkOn NoSideEffects
  refine ⟨fun h => ?_, fun i _ => rfl, fun i _ => rfl, fun i _ r hr => ?_, fun h => ?_⟩
  · exact absurd (h 3 (by decide)) (by decide)
  · cases hr
  · exact absurd (h 3 (by decide) ⟨0x103, 1⟩ (by decide)) (by decide)

/-- The two results of one region: the digest of "abc" (V-L1-2) and of the empty message (V-CM-3). -/
theorem witness_DigestFollowsItsRule_results :
    answers (exec .digest (withBytes 0x1000 [0x61, 0x62, 0x63] (withMessage 0x1000 3 (busy 3 []))))
      (fun t => t.digest = abcWords) ∧
    answers (exec .digest (withMessage 0x1234 0 (busy 3 [])))
      (fun t => t.digest = quad 0xD98C1DD4 0x04B2008F 0x980980E9 0x7E42F8EC) := by decide +kernel

/-- The four checks of HMAC at their boundaries, in their order (44_commands.md R184; V-CM-9 to V-CM-12). -/
theorem witness_HmacFollowsItsRule_checks :
    (withKey 0 0x20000000 (withMessage 0xFFFFFFFF 2 (busy 4 []))).hmacError = .tooLarge ∧
    (withKey 0xFFFFFFF0 0x11 (withMessage 0 0x20000000 (busy 4 []))).hmacError = .addrRange ∧
    (withKey 0xFFFFFFF0 0x10 (withMessage 0 0x1FFFFFC0 (busy 4 []))).hmacError = .tooLarge ∧
    (withMessage 0xFFFFFFFF 2 (busy 4 [])).hmacError = .addrRange ∧
    (withKey 0 0x1FFFFFFF (withMessage 0 0x1FFFFFBF (busy 4 []))).hmacError = .none := by decide +kernel

/-- BUS_ERR from the key region alone and from the message region alone; success with both regions empty (V-HM-1). -/
theorem witness_HmacFollowsItsRule_reads :
    answers (exec .hmac { withKey 0x200 1 (busy 4 []) with absent := [⟨0x200, 1⟩] })
      (fun t => t.status.ecode = .busErr ∧ t.kbuf = anyBlock) ∧
    answers (exec .hmac { withMessage 0x200 1 (busy 4 []) with absent := [⟨0x200, 1⟩] })
      (fun t => t.status.ecode = .busErr ∧ t.digest = State.reset.digest) ∧
    answers (exec .hmac (busy 4 [])) (fun t => t.digest[0] = .known 0x29F7E674 ∧ t.kbuf[0] = .known 0) := by decide +kernel

/-- KEYPREP's checks at their boundaries, and keys of 64 and 65 bytes (44_commands.md R185). -/
theorem witness_KeyprepFollowsItsRule :
    answers (exec .keyprep (withKey 0 0x20000000 (busy 5 []))) (fun t => t.status.ecode = .tooLarge) ∧
    answers (exec .keyprep (withKey 0xFFFFFFFF 2 (busy 5 []))) (fun t => t.status.ecode = .addrRange) ∧
    answers (exec .keyprep { withKey 0x200 3 (busy 5 []) with absent := [⟨0x202, 1⟩] }) (fun t => t.status.ecode = .busErr) ∧
    answers (exec .keyprep (withBytes 0 (List.replicate 65 0xAA) (withKey 0 64 (busy 5 []))))
      (fun t => t.kbuf[15] = .known 0xAAAAAAAA ∧ t.acc = State.reset.acc) ∧
    answers (exec .keyprep (withBytes 0 (List.replicate 65 0xAA) (withKey 0 65 (busy 5 []))))
      (fun t => t.kbuf[0] = .known 0xC2A497A1 ∧ t.kbuf[4] = .known 0 ∧ t.acc = anyQuad) := by decide +kernel

/-- The reserved words nearest the defined ones. -/
theorem witness_ReservedWordsReportIllegalCmd :
    decodeCmd 0x00000008 = .illegalOp 0 ∧ decodeCmd 0x0000000F = .illegalOp 7 ∧ decodeCmd 0x00000010 = .illegalRsv 1 0 ∧
    decodeCmd 0x00000007 = .opad := by decide

/-- Each error code, and BUS_ERR of each command that can raise it. -/
theorem witness_StateAfterAnError :
    answers (exec (decodeCmd 8) (busy 8 [])) (fun t => t.status.ecode = .illegalCmd) ∧
    answers (exec (decodeCmd 3) (withMessage 0 0x20000000 (busy 3 []))) (fun t => t.status.ecode = .tooLarge) ∧
    answers (exec (decodeCmd 3) (withMessage 0xFFFFFFFF 2 (busy 3 []))) (fun t => t.status.ecode = .addrRange) ∧
    answers (exec (decodeCmd 3) { withMessage 0x200 3 (busy 3 []) with absent := [⟨0x202, 1⟩] })
      (fun t => t.status.ecode = .busErr ∧ t.kbuf = State.reset.kbuf) ∧
    answers (exec (decodeCmd 4) { withMessage 0x200 3 (busy 4 []) with absent := [⟨0x202, 1⟩] })
      (fun t => t.status.ecode = .busErr ∧ t.kbuf = anyBlock) ∧
    answers (exec (decodeCmd 5) { withKey 0x200 3 (busy 5 []) with absent := [⟨0x202, 1⟩] })
      (fun t => t.status.ecode = .busErr ∧ t.kbuf = anyBlock) := by decide +kernel

/-- A state that agrees with `withMessage 0x100 2` and `withKey 0x200 1` only on the operands: other ACC, other bytes
elsewhere, BUS_OK false and a side effect elsewhere. -/
def sameOperands : State :=
  { withKey 0x200 1 (withMessage 0x100 2 (busy 3 [])) with
    acc := anyQuad, mem := [(0x102, 7)], absent := [⟨0x103, 1⟩], device := [⟨0x104, 1⟩] }

/-- Agreement on every byte of two short regions, from a check of each. -/
theorem sameRegion_of_checks {s s' : State} {a n : Nat}
    (h : ∀ i : Fin n, s'.busOk (a + i) = s.busOk (a + i) ∧ s'.sourceByte (a + i) = s.sourceByte (a + i) ∧
      s'.device.any (fun r => r.has (a + i)) = s.device.any (fun r => r.has (a + i))) : SameRegion s s' a n :=
  ⟨fun i hi => (h ⟨i, hi⟩).1, fun i hi => (h ⟨i, hi⟩).2.1, fun i hi => (h ⟨i, hi⟩).2.2⟩

theorem witness_ResultsDependOnOperandsAlone :
    SameMessage (withKey 0x200 1 (withMessage 0x100 2 (busy 3 []))) sameOperands ∧
    SameKey (withKey 0x200 1 (withMessage 0x100 2 (busy 3 []))) sameOperands ∧
    answers (exec .digest sameOperands) (fun t => t.status.ecode = .none) ∧
    answers (exec .keyprep sameOperands) (fun t => t.status.ecode = .none) ∧
    answers (exec .hmac sameOperands) (fun t => t.status.ecode = .none) :=
  ⟨⟨rfl, rfl, sameRegion_of_checks (by decide +kernel)⟩, ⟨rfl, rfl, sameRegion_of_checks (by decide +kernel)⟩,
    by decide +kernel, by decide +kernel, by decide +kernel⟩

/-- Each step reads the XBUF word its statement names: the last step of every round. -/
theorem witness_round_steps :
    (roundState 15).xbuf[15 % 16] = .known 0x0F0F0F0F ∧ (roundState 31).xbuf[(1 + 5 * 15) % 16] = .known 0x0C0C0C0C ∧
    (roundState 47).xbuf[(5 + 3 * 15) % 16] = .known 0x02020202 ∧ (roundState 63).xbuf[(7 * 15) % 16] = .known 0x09090909 := by
  decide

theorem witness_CmdWriteIsAcceptedOrDropped :
    (WritesReg (busy 3 [wrAt 0 0]) .cmd 0 [] ∧ (busy 3 [wrAt 0 0]).busy = true) ∧
    (WritesReg (idle [wrAt 0 3]) .cmd 3 [] ∧ (idle [wrAt 0 3]).busy = false) :=
  ⟨⟨⟨0, by decide, rfl⟩, rfl⟩, ⟨⟨0, by decide, rfl⟩, rfl⟩⟩

/-- The busy state meets the invariant, and each kind of register is written: the first and last data register, STATUS,
CTRL, DIGEST and the last reserved offset. -/
theorem witness_WritesWhileBusy :
    (busy 3 []).busy = true ∧ WritesReg (busy 3 [wrAt 0x010 1]) .msgAddr 1 [] ∧
    WritesReg (busy 3 [wrAt 0x0BC 1]) (.kbuf 15) 1 [] ∧ WritesReg (busy 3 [wrAt 0x004 14]) .status 14 [] ∧
    WritesReg (busy 3 [wrAt 0x008 1]) .ctrl 1 [] ∧ WritesReg (busy 3 [wrAt 0x03C 1]) (.digest 3) 1 [] ∧
    WritesReg (busy 3 [wrAt 0x0FC 1]) .reserved 1 [] :=
  ⟨rfl, ⟨_, by decide, rfl⟩, ⟨_, by decide, rfl⟩, ⟨_, by decide, rfl⟩, ⟨_, by decide, rfl⟩, ⟨_, by decide, rfl⟩,
    ⟨_, by decide, rfl⟩⟩

theorem witness_busy_Inv : Inv (busy 3 [wrAt 0x004 14]) := by
  constructor <;> simp [busy, State.reset, Memory.wf, Status.atAcceptance]

/-- A read of each kind of register, while BUSY and while idle. -/
theorem witness_ReadsWhileBusyAndIdle :
    ReadsReg (busy 3 [rdAt 0x004]) .status [] ∧ ReadsReg (busy 3 [rdAt 0x020]) (.acc 0) [] ∧
    ReadsReg (busy 3 [rdAt 0x0C0]) .reserved [] ∧ ReadsReg (idle [rdAt 0x0BC]) (.kbuf 15) [] ∧
    (idle [rdAt 0x02C]).acc[3] = .known 0x10325476 ∧ ReadsReg (idle [rdAt 0x02C]) (.acc 3) [] ∧
    answers (step (idle [rdAt 0x02C])) (fun t => t.rdata = 0x10325476) = true :=
  ⟨⟨_, by decide, rfl⟩, ⟨_, by decide, rfl⟩, ⟨_, by decide, rfl⟩, ⟨_, by decide, rfl⟩, rfl, ⟨_, by decide, rfl⟩,
    by decide +kernel⟩

theorem witness_IdleWriteIsReadBack :
    (idle [wrAt 0x07C 5]).busy = false ∧ WindowReg.guarded (.xbuf 15) = true ∧
    WritesReg (idle [wrAt 0x07C 5]) (.xbuf 15) 5 [] ∧
    answers (step (idle [wrAt 0x07C 5])) (fun t => (hostRead (.xbuf 15) t).rdata = 5) = true :=
  ⟨rfl, rfl, ⟨_, by decide, rfl⟩, by decide +kernel⟩

theorem witness_CtrlTakesBitZeroAndReadOnlyWritesAreIgnored :
    WritesReg (idle [wrAt 0x008 0xFFFFFFFF]) .ctrl 0xFFFFFFFF [] ∧ WritesReg (idle [wrAt 0x030 1]) (.digest 0) 1 [] ∧
    WritesReg (idle [wrAt 0x00C 1]) .reserved 1 [] ∧ WritesReg (busy 3 [wrAt 0x0C0 1]) .reserved 1 [] :=
  ⟨⟨_, by decide, rfl⟩, ⟨_, by decide, rfl⟩, ⟨_, by decide, rfl⟩, ⟨_, by decide, rfl⟩⟩

theorem witness_StatusIsWriteOneToClear :
    WritesReg { idle [wrAt 0x004 0xE] with status := ⟨true, true, true, .busErr⟩ } .status 0xE [] ∧
    State.statusWord { idle [wrAt 0x004 0xE] with status := ⟨true, true, true, .busErr⟩ } = 0x0000004E :=
  ⟨⟨_, by decide, rfl⟩, by decide⟩

/-- A dropped write sets OVR; a STATUS write and the reset input clear it; an engine move from a state with it. -/
theorem witness_OvrIsSticky :
    (∃ t, step (busy 3 [wrAt 0 0]) = .next t ∧ t.status.ovr = true) ∧
    (∃ t, step { idle [wrAt 4 8] with status := ⟨true, false, true, .none⟩ } = .next t ∧ t.status.ovr = false) ∧
    (∃ t, step { idle [.reset] with status := ⟨true, false, true, .none⟩ } = .next t ∧ t.status.ovr = false) ∧
    (∃ t, engineMove (busy 0 []) = .next t) ∧ ∃ t, microMove (busy 2 []) = .next t :=
  ⟨⟨_, rfl, rfl⟩, ⟨_, rfl, rfl⟩, ⟨_, rfl, rfl⟩, ⟨_, rfl⟩, by
    obtain ⟨t, h, -⟩ := of_answers (o := microMove (busy 2 [])) (p := fun _ => true) (by decide +kernel)
    exact ⟨t, h⟩⟩

/-- A wrong width, an address below the window, the first above it, and an unaligned one. -/
theorem witness_OtherAccessesAreRefused :
    step (idle [.access (.read 2 0x004)]) = .refused .badAccess ∧
    step { idle [.access (.read 4 0x0FC)] with mmioBase := 0x100 } = .refused .badAccess ∧
    step (idle [.access (.write 4 0x100 0)]) = .refused .badAccess ∧
    step (idle [.access (.read 4 0x022)]) = .refused .badAccess := ⟨rfl, rfl, rfl, rfl⟩

/-- Both ends of every range of the window. -/
theorem witness_WindowOffsetsSelectRegisters :
    selectReg 0 4 0x020 = some (.acc 0) ∧ selectReg 0 4 0x02C = some (.acc 3) ∧ selectReg 0 4 0x030 = some (.digest 0) ∧
    selectReg 0 4 0x03C = some (.digest 3) ∧ selectReg 0 4 0x040 = some (.xbuf 0) ∧ selectReg 0 4 0x07C = some (.xbuf 15) ∧
    selectReg 0 4 0x080 = some (.kbuf 0) ∧ selectReg 0 4 0x0BC = some (.kbuf 15) ∧ selectReg 0 4 0x0C0 = some .reserved ∧
    selectReg 0 4 0x0FC = some .reserved ∧ selectReg 0 4 0x00C = some .reserved ∧ selectReg 0 4 0x0FF = none := by decide

/-- A completion with IE = 1, and the three host writes that lower irq. -/
theorem witness_IrqIsIeAndDone :
    (∃ t, exec (decodeCmd 0) { busy 0 [] with ie := true } = .next t ∧ t.irq = true) ∧
    (WritesReg (idle [wrAt 4 2]) .status 2 [] ∧ (2 : Word).getLsbD 1 = true) ∧
    (WritesReg (idle [wrAt 8 0]) .ctrl 0 [] ∧ (0 : Word).getLsbD 0 = false) ∧
    (WritesReg (idle [wrAt 0 0]) .cmd 0 [] ∧ (idle [wrAt 0 0]).busy = false) :=
  ⟨⟨_, rfl, rfl⟩, ⟨⟨_, by decide, rfl⟩, by decide⟩, ⟨⟨_, by decide, rfl⟩, by decide⟩, ⟨⟨_, by decide, rfl⟩, rfl⟩⟩

theorem witness_ResetInputRestoresResetValues : (busy 3 [.reset, .wait]).inputs = .reset :: [.wait] := rfl

theorem witness_IdleEngineKeepsItsState : (idle []).inputs = [] ∧ (idle []).busy = false := ⟨rfl, rfl⟩

/-- DIGEST changes at the end of a DIGEST command, and at the reset input. -/
theorem witness_OnlyDigestAndHmacWriteDigest :
    (∃ t, step (busy 3 []) = .next t ∧ t.digest ≠ (busy 3 []).digest) ∧
    ∃ t, step { idle [.reset] with digest := abcWords } = .next t ∧ t.digest ≠ abcWords := by
  constructor
  · simpa using of_answers (o := step (busy 3 [])) (p := fun t => t.digest ≠ (busy 3 []).digest) (by decide +kernel)
  · exact ⟨_, rfl, by decide⟩

/-- A host store changes a byte while idle; one while BUSY finds the byte plain, and a second finds it raced. -/
theorem witness_stores :
    Memory.wf (idle [.store 7 5]).mem = true ∧
    (∃ t, step (idle [.store 7 5]) = .next t ∧ Memory.read t.mem 7 ≠ Memory.read (idle [.store 7 5]).mem 7) ∧
    ((idle [.store 7 5]).busy = false ∧ PlainByte (idle [.store 7 5]) 7) ∧
    ((busy 3 [.store 7 5]).busy = true ∧ (busy 3 [.store 7 5]).inputs = .store 7 5 :: [] ∧ PlainByte (busy 3 [.store 7 5]) 7) ∧
    ∃ c ∈ ({ busy 3 [.store 7 5] with racing := [(7, 1)] } : State).racing, c.1 = (7 : Word).toNat :=
  ⟨rfl, ⟨_, rfl, by decide⟩, ⟨rfl, by decide, by decide⟩, ⟨rfl, rfl, by decide, by decide⟩, ⟨(7, 1), by decide, rfl⟩⟩

theorem witness_NoCommandReplacesARunningOne : ∃ t, step (busy 3 [wrAt 0 4]) = .next t ∧ (busy 3 [wrAt 0 4]).busy = true :=
  ⟨_, rfl, rfl⟩

/-- The zero block after its first step from IV. -/
def afterStepZero : State :=
  { busy 2 [] with
    stage := .rounds, stepIdx := 1, chain := iv, acc := knownQuad iv
    xbuf := knownBlock (Vector.replicate 16 0), work := workAfter iv (Vector.replicate 16 0) 1 }

/-- A state in the rounds of a block meets the invariant, and steps. -/
theorem witness_StepKeepsTheInvariant : Inv afterStepZero ∧ ∃ t, step afterStepZero = .next t := by
  refine ⟨?_, ?_⟩
  · refine ⟨rfl, ?_, fun _ => ⟨rfl, rfl⟩, ?_, ?_, fun _ => ⟨rfl, iv, rfl⟩, ?_, fun _ => ⟨_, rfl, rfl, rfl⟩, ?_⟩
    · simp [afterStepZero, busy, Status.atAcceptance]
    all_goals simp [afterStepZero]
  · obtain ⟨t, h, -⟩ := of_answers (o := step afterStepZero) (p := fun _ => true) (by decide +kernel)
    exact ⟨t, h⟩

theorem witness_StepLevelRunEqualsTheWholeEffect : (busy 3 []).stage = .accepted ∧ (busy 3 []).inputs = [] ∧
    blocksToRun (busy 3 []) = 1 := by decide

theorem witness_EveryCommandCompletes : (roundState 63).busy = true ∧ (roundState 63).inputs = [] := ⟨rfl, rfl⟩

/-- Both ends of the rotation amounts, and of the bit numbers of a word. -/
theorem witness_core_ranges :
    ((1 : Nat) ≤ 1 ∧ (1 : Nat) ≤ 31) ∧ combine 0 0x80000000 5 0 1 0 = 6 ∧ combine 0 2 5 0 31 0 = 6 ∧
    (roundF 0x80000000 0x80000000 0).getLsbD 31 = true ∧ (roundG 1 0 1).getLsbD 0 = true := by decide

/-- Lengths at the boundaries of the codec's and the padder's hypotheses. -/
theorem witness_byte_strings :
    ([1] : List Byte).length % 4 ≠ 0 ∧ 4 < ([1, 2, 3, 4, 5] : List Byte).length ∧ ([] : List Byte).length < 2 ^ 29 ∧
    (zeros 56).length < 2 ^ 29 ∧ (zeros 64).length = 64 ∧ 64 < (zeros 65).length := by decide

end Sys2Proof.Tests
end

/-! SUPPORT. The rules of the register window (10_state.md R22 to R27, R38 to R40), one for each kind of access, and
that the engine neither reads nor writes OVR (R26). -/

namespace Sys2Proof.Machine

/-! ### The words of STATUS and CTRL -/

/-- STATUS bit 1 is DONE (10_state.md R22). -/
theorem statusWord_bit1 (b : Bool) (st : Status) : (statusWord b st).getLsbD 1 = st.done := by
  rw [statusWord, BitVec.getLsbD_append, BitVec.getLsbD_append]
  simp

/-- CTRL bit 0 is IE (10_state.md R27). -/
theorem ctrlWord_bit0 (s : State) : s.ctrlWord.getLsbD 0 = s.ie := by
  rw [State.ctrlWord, BitVec.getLsbD_append]
  simp

/-- STATUS with DONE, ERR and ECODE 0 reads 0 outside the bits 0 (BUSY) and 3 (OVR). -/
theorem statusWord_clear_mask (b o : Bool) : statusWord b ⟨false, false, o, .none⟩ &&& 0xFFFFFFF6 = 0 := by
  revert b o; decide

/-- In a state of the invariant DONE, ERR and ECODE are 0 while BUSY (10_state.md R24, R25). -/
theorem Inv.status_of_busy {s : State} (hi : Inv s) (hb : s.busy = true) :
    s.status = ⟨false, false, s.status.ovr, .none⟩ := by
  obtain ⟨hdone, herr⟩ := hi.busyClear hb
  have hcode : s.status.ecode = .none := by
    by_contra hne
    exact absurd (hi.errCode.2 hne) (by simp [herr])
  calc s.status = ⟨s.status.done, s.status.err, s.status.ovr, s.status.ecode⟩ := rfl
    _ = ⟨false, false, s.status.ovr, .none⟩ := by rw [hdone, herr, hcode]

/-- Acknowledging a STATUS with DONE, ERR and ECODE 0 leaves them 0. -/
theorem acknowledge_clear (v : Word) (o : Bool) :
    acknowledge v ⟨false, false, o, .none⟩ = ⟨false, false, o && !v.getLsbD 3, .none⟩ := by
  simp [acknowledge]

/-! ### Host writes -/

theorem unlessBusy_busy {s : State} (hb : s.busy = true) (t : State) :
    unlessBusy s t = { s with status := s.status.overrun } := if_pos hb

theorem unlessBusy_idle {s : State} (hb : s.busy = false) (t : State) : unlessBusy s t = t := by
  simp [unlessBusy, hb]

/-- A write to CMD or a data register while BUSY changes OVR and nothing else (10_state.md R39). -/
theorem hostWrite_dropped {s : State} {r : WindowReg} (hb : s.busy = true) (hr : r.guarded = true) (v : Word) :
    hostWrite r v s = { s with status := s.status.overrun } := by
  cases r with
  | status | ctrl | digest _ | reserved => cases hr
  | cmd | msgAddr | msgLen | keyAddr | keyLen | acc _ | xbuf _ | kbuf _ => exact unlessBusy_busy hb _

/-- A CMD write while idle is accepted (44_commands.md R175). -/
theorem hostWrite_cmd_idle {s : State} (hb : s.busy = false) (v : Word) : hostWrite .cmd v s = accept v s :=
  unlessBusy_idle hb _

/-- OVR after a host write (10_state.md R26): set by a dropped write, cleared through STATUS, else kept. -/
theorem hostWrite_ovr (r : WindowReg) (v : Word) (s : State) :
    (s.busy = true ∧ r.guarded = true ∧ (hostWrite r v s).status.ovr = true) ∨
      (r = .status ∧ (hostWrite r v s).status.ovr = (s.status.ovr && !v.getLsbD 3)) ∨
      (hostWrite r v s).status.ovr = s.status.ovr := by
  cases r with
  | status => exact .inr (.inl ⟨rfl, rfl⟩)
  | ctrl | digest _ | reserved => exact .inr (.inr rfl)
  | cmd | msgAddr | msgLen | keyAddr | keyLen | acc _ | xbuf _ | kbuf _ =>
    cases hb : s.busy with
    | true => exact .inl ⟨rfl, rfl, by rw [hostWrite_dropped hb rfl]; rfl⟩
    | false => exact .inr (.inr (congrArg (·.status.ovr) (unlessBusy_idle hb _)))

/-! ### Host reads -/

/-- A data register read while BUSY is a new draw, whatever it holds (10_state.md R38). -/
theorem hostRead_working_busy {s : State} {r : WindowReg} (hr : r.working = true) (hb : s.busy = true) :
    (hostRead r s).rdata = Config.drawWord s.draws 0 ∧ (hostRead r s).draws = s.draws + 1 := by
  cases r with
  | cmd | status | ctrl | msgAddr | msgLen | keyAddr | keyLen | reserved => cases hr
  | acc _ | digest _ | xbuf _ | kbuf _ => simp [hostRead, deliverReg, hb, Reg.value, Reg.isAny]

/-- A known word read while idle is its value (10_state.md R38). -/
theorem deliverReg_known_idle {s : State} {w : Word} (hb : s.busy = false) :
    (deliverReg (.known w) s).rdata = w := by
  simp [deliverReg, hb, Reg.value]

@[simp] theorem hostRead_status (r : WindowReg) (s : State) : (hostRead r s).status = s.status := by
  rw [hostRead_eq]

/-! ### OVR under a step -/

@[simp] theorem storeByte_status (a : Word) (b : Byte) (s : State) : (storeByte a b s).status = s.status := by
  rw [storeByte_eq]

theorem Completes.ovr {i : Instr} {s t : State} (h : Completes i s t) : t.status.ovr = s.status.ovr := by
  obtain ⟨e, u, hc, -, rfl⟩ := h
  simp [Status.atCompletion, hc.status]

/-- No move of the engine changes OVR. -/
theorem move_ovr {s t : State} (h : engineMove s = .next t ∨ microMove s = .next t) :
    t.status.ovr = s.status.ovr := by
  rcases h.elim engineMove_cases microMove_cases with ⟨-, rfl⟩ | ⟨-, hk⟩ | ⟨-, hc⟩
  · rfl
  · rw [hk.status]
  · exact hc.ovr

/-- OVR after a step (10_state.md R26): kept but for the reset input, a dropped write and a write to STATUS. -/
theorem step_ovr {s t : State} (h : step s = .next t) :
    t.status.ovr = s.status.ovr ∨ (∃ rest, s.inputs = .reset :: rest ∧ t.status.ovr = false) ∨
      (∃ r v rest, WritesReg s r v rest ∧ s.busy = true ∧ r.guarded = true ∧ t.status.ovr = true) ∨
      ∃ v rest, WritesReg s .status v rest ∧ t.status.ovr = (s.status.ovr && !v.getLsbD 3) := by
  rcases step_cases h with ⟨rest, hi, rfl⟩ | ⟨a, b, rest, -, rfl⟩ | ⟨r, v, rest, hw, rfl⟩ | ⟨r, rest, -, rfl⟩ |
    ⟨rest, -, -, rfl⟩ | ⟨i, hm, -⟩
  · exact .inr (.inl ⟨rest, hi, rfl⟩)
  · exact .inl (by rw [storeByte_status])
  · rcases hostWrite_ovr r v { s with inputs := rest } with ⟨hb, hr, ho⟩ | ⟨rfl, ho⟩ | ho
    · exact .inr (.inr (.inl ⟨r, v, rest, hw, hb, hr, ho⟩))
    · exact .inr (.inr (.inr ⟨v, rest, hw, ho⟩))
    · exact .inl ho
  · exact .inl (by rw [hostRead_status])
  · exact .inl rfl
  · exact .inl (move_ovr (s := { s with inputs := i }) hm)

/-! ### The engine does not read OVR -/

/-- `s` with OVR = `b`. -/
def withOvr (b : Bool) (s : State) : State := { s with status := { s.status with ovr := b } }

section
variable (b : Bool) (s : State)

@[simp] theorem withOvr_stage : (withOvr b s).stage = s.stage := rfl
@[simp] theorem withOvr_pass : (withOvr b s).pass = s.pass := rfl
@[simp] theorem withOvr_job : (withOvr b s).job = s.job := rfl

theorem withOvr_memRead (a n : Nat) : (withOvr b s).memRead a n = s.memRead a n :=
  memRead_congr (s := s) (t := withOvr b s) rfl rfl rfl rfl rfl a n

@[simp] theorem withOvr_message : (withOvr b s).message = s.message := withOvr_memRead b s _ _
@[simp] theorem withOvr_key : (withOvr b s).key = s.key := withOvr_memRead b s _ _

@[simp] theorem withOvr_passStream (j : Job) : passStream (withOvr b s) j = passStream s j := by
  cases j with
  | compress => rfl
  | digest => exact withOvr_message b s
  | keyprep => exact withOvr_key b s
  | hmac => simp only [passStream, withOvr_message, withOvr_key]; rfl

theorem finishKeyprep_withOvr (d : Bool) (kb : Vector Reg 16) :
    finishKeyprep d kb (withOvr b s) = withOvr b (finishKeyprep d kb s) := by
  cases d <;> rfl

/-- An instruction has the same effect whatever OVR is, and leaves OVR as it was. -/
theorem exec_withOvr (i : Instr) :
    ∃ t, exec i s = .next t ∧ exec i (withOvr b s) = .next (withOvr b t) := by
  cases i with
  | digest =>
    by_cases he : s.digestError = .none
    · cases hm : s.message with
      | some m => exact ⟨_, exec_digest_ok he hm, exec_digest_ok (s := withOvr b s) he (by simpa using hm)⟩
      | none => exact ⟨_, exec_digest_bus he hm, exec_digest_bus (s := withOvr b s) he (by simpa using hm)⟩
    · exact ⟨_, exec_digest_check he, exec_digest_check (s := withOvr b s) he⟩
  | hmac =>
    by_cases he : s.hmacError = .none
    · by_cases hn : s.key = none ∨ s.message = none
      · exact ⟨_, exec_hmac_bus he hn, exec_hmac_bus (s := withOvr b s) he (by simpa using hn)⟩
      · obtain ⟨hk, hm⟩ := not_or.1 hn
        obtain ⟨k, hk⟩ := Option.ne_none_iff_exists'.1 hk
        obtain ⟨m, hm⟩ := Option.ne_none_iff_exists'.1 hm
        exact ⟨_, exec_hmac_ok he hk hm,
          exec_hmac_ok (s := withOvr b s) he (by simpa using hk) (by simpa using hm)⟩
    · exact ⟨_, exec_hmac_check he, exec_hmac_check (s := withOvr b s) he⟩
  | keyprep =>
    by_cases he : s.keyError = .none
    · cases hk : s.key with
      | some k =>
        exact ⟨_, exec_keyprep_ok he hk, (exec_keyprep_ok (s := withOvr b s) he (by simpa using hk)).trans
          (congrArg _ (finishKeyprep_withOvr b s _ _))⟩
      | none => exact ⟨_, exec_keyprep_bus he hk, exec_keyprep_bus (s := withOvr b s) he (by simpa using hk)⟩
    · exact ⟨_, exec_keyprep_check he, exec_keyprep_check (s := withOvr b s) he⟩
  | nop | init | compress | ipad | opad | illegalOp _ | illegalRsv _ _ | ff _ | gg _ | hh _ | ii _ =>
    exact ⟨_, rfl, rfl⟩

theorem beginStepLevel_withOvr : beginStepLevel (withOvr b s) = (beginStepLevel s).map (withOvr b) := by
  unfold beginStepLevel
  rw [withOvr_job]
  cases s.job with
  | none => rfl
  | some j =>
    cases j with
    | compress | digest | keyprep | hmac =>
      simp only [withOvr_key, apply_ite (Option.map (withOvr b)), Option.map_map]
      rfl

theorem startBlock_withOvr : startBlock (withOvr b s) = (startBlock s).map (withOvr b) := by
  unfold startBlock
  rw [withOvr_job, apply_ite (Option.map (withOvr b))]
  cases s.job with
  | none => rfl
  | some j =>
    cases j with
    | compress => rfl
    | digest | keyprep | hmac =>
      simp only [withOvr_passStream, Option.map_map]
      rfl

theorem endPass_withOvr (d : Quad) (j : Job) : endPass d (withOvr b s) j = (endPass d s j).map (withOvr b) := by
  cases j with
  | compress => rfl
  | digest | keyprep =>
    simp only [endPass, apply_ite (Option.map (withOvr b))]
    rfl
  | hmac =>
    unfold endPass
    rw [withOvr_pass]
    cases s.pass with
    | key | inner => rfl
    | outer =>
      simp only [apply_ite (Option.map (withOvr b))]
      rfl

theorem endBlock_withOvr : endBlock (withOvr b s) = (endBlock s).map (withOvr b) := by
  unfold endBlock
  rw [withOvr_job]
  cases s.job with
  | none => rfl
  | some j =>
    cases j with
    | compress => rfl
    | digest | keyprep | hmac =>
      simp only [withOvr_passStream, endPass_withOvr, Option.map_bind, Function.comp_def,
        apply_ite (Option.map (withOvr b))]
      rfl

end

theorem exec_withOvr_of_next (b : Bool) {i : Instr} {s t : State} (h : exec i s = .next t) :
    exec i (withOvr b s) = .next (withOvr b t) := by
  obtain ⟨u, hs, hb⟩ := exec_withOvr b s i
  obtain rfl : u = t := by simpa [hs] using h
  exact hb

/-- A command's remaining move, step by step or whole, is the same whatever OVR is, if its step-by-step move is. -/
theorem orWhole_withOvr {b : Bool} {s t : State} {move move' : Option State} (hm : move' = move.map (withOvr b))
    (h : orWhole move s = .next t) : orWhole move' (withOvr b s) = .next (withOvr b t) := by
  subst hm
  cases move with
  | some u => cases h; rfl
  | none => exact exec_withOvr_of_next b h

theorem engineMove_withOvr (b : Bool) {s t : State} (h : engineMove s = .next t) :
    engineMove (withOvr b s) = .next (withOvr b t) := by
  unfold engineMove at h ⊢
  rw [withOvr_stage]
  cases hs : s.stage with
  | idle => rw [hs] at h; cases h; rfl
  | accepted => rw [hs] at h; exact exec_withOvr_of_next b h
  | blockStart => rw [hs] at h; exact orWhole_withOvr (startBlock_withOvr b s) h
  | rounds => rw [hs] at h; exact exec_withOvr_of_next b h
  | feedForward => rw [hs] at h; exact orWhole_withOvr (endBlock_withOvr b s) h

theorem microMove_withOvr (b : Bool) {s t : State} (h : microMove s = .next t) :
    microMove (withOvr b s) = .next (withOvr b t) := by
  unfold microMove at h ⊢
  rw [withOvr_stage]
  cases hs : s.stage with
  | accepted => rw [hs] at h; exact orWhole_withOvr (beginStepLevel_withOvr b s) h
  | idle | blockStart | rounds | feedForward => rw [hs] at h; exact engineMove_withOvr b h

/-! ### irq -/

/-- A command's completion raises irq exactly where IE is 1 (10_state.md R40). -/
theorem exec_command_irq {i : Instr} (hi : isRound i = false) {s t : State} (h : exec i s = .next t) :
    t.irq = s.ie := by
  obtain ⟨e, u, hc, he⟩ := exec_command hi s
  obtain rfl : complete e u = t := by simpa [he] using h
  simp [State.irq, Status.atCompletion, hc.ie]

end Sys2Proof.Machine

/-! The statements of the register window (10_state.md). -/

namespace Sys2Proof.Machine

/-- Settles O23: a dropped write sets OVR; an acknowledge of a STATUS that the invariant keeps clear while BUSY. -/
theorem writesWhileBusy : Obligations.WritesWhileBusy := by
  intro s r v rest hb hw
  refine ⟨_, step_write hw, fun hr => hostWrite_dropped (s := { s with inputs := rest }) hb hr v, ?_, ?_, ?_⟩
  · rintro rfl
    refine ⟨rfl, rfl, fun hi => ?_⟩
    show statusWord s.busy (acknowledge v s.status) &&& _ = 0
    rw [hi.status_of_busy hb, acknowledge_clear]
    exact statusWord_clear_mask ..
  · rintro rfl
    rfl
  · rintro (⟨j, rfl⟩ | rfl) <;> rfl

/-- Settles O24: a read is the one `hostRead` of its register. -/
theorem readsWhileBusyAndIdle : Obligations.ReadsWhileBusyAndIdle := by
  intro s r rest hr
  refine ⟨_, step_read hr, hostRead_eq r _, ?_, ?_, ?_, ?_, ?_, ?_, ?_, ?_, ?_⟩
  iterate 6 · rintro rfl; rfl
  · rintro (rfl | rfl) <;> rfl
  · exact fun hr hb => hostRead_working_busy (s := { s with inputs := rest }) hr hb
  · intro hb j w
    have read : ∀ x : Reg, x = .known w → (deliverReg x { s with inputs := rest }).rdata = w := by
      rintro x rfl
      exact deliverReg_known_idle hb
    refine ⟨?_, ?_, ?_, ?_⟩ <;> rintro h rfl hj <;> exact read _ hj

/-- Settles O28: a step's OVR by `step_ovr`, and the engine's blindness to it by `exec_withOvr` and its like. -/
theorem ovrIsSticky : Obligations.OvrIsSticky := by
  refine ⟨?_, ?_, ?_, ?_, ?_⟩
  · intro s r v rest hb hr hw
    exact ⟨_, step_write hw, by rw [hostWrite_dropped (s := { s with inputs := rest }) hb hr]; rfl⟩
  · intro s t h h0 h1
    rcases step_ovr h with he | ⟨-, -, he⟩ | ⟨r, v, rest, hw, hb, hr, -⟩ | ⟨v, rest, -, he⟩
    · simp [he, h0] at h1
    · simp [he] at h1
    · exact ⟨hb, r, v, rest, hr, hw⟩
    · simp [he, h0] at h1
  · intro s v rest hw h3
    exact ⟨_, step_write hw, by simp only [hostWrite, acknowledge, h3, Bool.not_true, Bool.and_false]⟩
  · intro s t h h1 h0
    rcases step_ovr h with he | ⟨rest, hi, -⟩ | ⟨-, -, -, -, -, -, he⟩ | ⟨v, rest, hw, he⟩
    · simp [he, h1] at h0
    · exact .inr ⟨rest, hi⟩
    · simp [he] at h0
    · rw [he, h1, Bool.true_and] at h0
      exact .inl ⟨v, rest, hw, by simpa using h0⟩
  · exact fun b s t => ⟨fun i => exec_withOvr_of_next b, engineMove_withOvr b, microMove_withOvr b⟩

/-- Settles O31: the two bits that irq is made of, a completion, and the three writes that lower one of them. -/
theorem irqIsIeAndDone : Obligations.IrqIsIeAndDone := by
  refine ⟨fun s => ?_, rfl, fun w s t => exec_command_irq (isRound_decodeCmd w), ?_⟩
  · rw [ctrlWord_bit0, State.statusWord, statusWord_bit1]; rfl
  · intro s r v rest hw hc
    refine ⟨_, step_write hw, ?_⟩
    rcases hc with ⟨rfl, h1⟩ | ⟨rfl, h0⟩ | ⟨rfl, hb⟩
    · show (s.ie && (s.status.done && !v.getLsbD 1)) = false
      rw [h1, Bool.not_true, Bool.and_false, Bool.and_false]
    · show (v.getLsbD 0 && s.status.done) = false
      rw [h0, Bool.false_and]
    · rw [hostWrite_cmd_idle (s := { s with inputs := rest }) hb]
      exact Bool.and_false s.ie

/-- Settles O32: each value is a field of `State.reset`, or a word computed from its fields. -/
theorem resetValues : Obligations.ResetValues :=
  ⟨rfl, rfl, rfl, rfl, rfl, rfl, rfl, rfl, rfl, rfl, rfl, rfl, rfl⟩

end Sys2Proof.Machine

/-! The window's decoding (30_encoding.md R92): what an offset selects by its word, and each array of registers as one
run of words. -/

namespace Sys2Proof.Machine

/-! ### The offset's word -/

theorem selectReg_aligned (base : Nat) {o : Nat} (ho : o < 0x100) (ha : o % 4 = 0) :
    selectReg base 4 (base + o) = some (windowRegAt (o / 4)) := by
  have inWindow : base ≤ base + o ∧ base + o < base + windowSize := by unfold windowSize; omega
  simp only [selectReg, Nat.add_sub_cancel_left, inWindow, ha, and_self, if_true]

theorem selectReg_unaligned (base width : Nat) {o : Nat} (ha : o % 4 ≠ 0) :
    selectReg base width (base + o) = none := by
  simp only [selectReg, Nat.add_sub_cancel_left, ha, and_false, if_false]

/-! ### The register at a word -/

theorem windowRegAt_acc : ∀ j : Fin 4, windowRegAt (0x08 + j) = .acc j := by decide

theorem windowRegAt_digest : ∀ j : Fin 4, windowRegAt (0x0C + j) = .digest j := by decide

theorem windowRegAt_xbuf : ∀ j : Fin 16, windowRegAt (0x10 + j) = .xbuf j := by decide

theorem windowRegAt_kbuf : ∀ j : Fin 16, windowRegAt (0x20 + j) = .kbuf j := by decide

theorem windowRegAt_reserved {q : Nat} (h : q = 0x03 ∨ 0x30 ≤ q) : windowRegAt q = .reserved := by
  rcases h with rfl | h
  · rfl
  · unfold windowRegAt
    repeat rw [if_neg (by omega)]

/-- Where the `n` words from `first` on are the registers `reg 0`, `reg 1`, …, an aligned offset among theirs selects
the register of its index. -/
theorem selectReg_array (base : Nat) {first n : Nat} {reg : Fin n → WindowReg}
    (hreg : ∀ j : Fin n, windowRegAt (first + j) = reg j) {o : Nat} (ho : o < 0x100) (ha : o % 4 = 0)
    (hlo : 4 * first ≤ o) (hhi : o < 4 * (first + n)) :
    ∃ h, selectReg base 4 (base + o) = some (reg ⟨(o - 4 * first) / 4, h⟩) := by
  have hj : (o - 4 * first) / 4 < n := by omega
  have hq : o / 4 = first + (o - 4 * first) / 4 := by omega
  exact ⟨hj, by rw [selectReg_aligned base ho ha, hq, hreg ⟨_, hj⟩]⟩

/-- Settles O30: the single registers by their word, the four arrays by `selectReg_array`, the rest reserved. -/
theorem windowOffsetsSelectRegisters : Obligations.WindowOffsetsSelectRegisters := by
  intro base
  have single : ∀ q, q < 0x40 → selectReg base 4 (base + 4 * q) = some (windowRegAt q) := fun q hq => by
    rw [selectReg_aligned base (by omega) (Nat.mul_mod_right 4 q), Nat.mul_div_cancel_left q (by decide)]
  refine ⟨single 0 (by decide), single 1 (by decide), single 2 (by decide), single 4 (by decide), single 5 (by decide),
    single 6 (by decide), single 7 (by decide), fun o ho ha => ⟨?_, ?_, ?_, ?_, ?_⟩,
    fun o _ ha => selectReg_unaligned base 4 ha⟩
  · exact fun h => selectReg_array base windowRegAt_acc ho ha h.1 (by omega)
  · exact fun h => selectReg_array base windowRegAt_digest ho ha h.1 (by omega)
  · exact fun h => selectReg_array base windowRegAt_xbuf ho ha h.1 (by omega)
  · exact fun h => selectReg_array base windowRegAt_kbuf ho ha h.1 (by omega)
  · intro h
    rw [selectReg_aligned base ho ha, windowRegAt_reserved (by omega)]

end Sys2Proof.Machine

/-! The CompressionCore's primitives (41_compression_core.md R111 to R114, R119, R120): the round functions bit by bit,
the round function of a step index, and the step primitive on natural numbers. -/

namespace Sys2Proof.Machine

/-! ### The round functions -/

/-- F is a choice by b, bit by bit (41_compression_core.md R111). -/
theorem roundF_getLsbD (b c d : Word) {n : Nat} (hn : n < 32) :
    (roundF b c d).getLsbD n = if b.getLsbD n then c.getLsbD n else d.getLsbD n := by
  simp only [roundF, BitVec.getLsbD_or, BitVec.getLsbD_and, BitVec.getLsbD_not, hn, decide_true, Bool.true_and]
  cases b.getLsbD n <;> simp

/-- G is F with d as the choosing word (41_compression_core.md R111, R112). -/
theorem roundG_eq_roundF (b c d : Word) : roundG b c d = roundF d b c := by
  rw [roundG, roundF, BitVec.and_comm b d, BitVec.and_comm c (~~~d)]

theorem roundG_getLsbD (b c d : Word) {n : Nat} (hn : n < 32) :
    (roundG b c d).getLsbD n = if d.getLsbD n then b.getLsbD n else c.getLsbD n := by
  rw [roundG_eq_roundF, roundF_getLsbD d b c hn]

@[simp] theorem rndField_append (r : BitVec 2) (j : BitVec 4) : rndField (r ++ j) = r :=
  BitVec.extractLsb'_append_eq_left

/-- The round function of a step index depends on its round alone (41_compression_core.md R119). -/
theorem roundFn_append (r : BitVec 2) (j : BitVec 4) : roundFn (r ++ j) = roundFn (r ++ 0#4) := by
  rw [roundFn, roundFn, rndField_append, rndField_append]

/-- Settles O43: F bit by bit, G as F with d choosing, and each round's function by the round alone. -/
theorem roundFunctionsSelectBits : Obligations.RoundFunctionsSelectBits :=
  ⟨fun b c d => ⟨rfl, fun _ => roundF_getLsbD b c d, rfl, fun _ => roundG_getLsbD b c d, rfl, rfl⟩,
    fun j => ⟨roundFn_append 0 j, roundFn_append 1 j, roundFn_append 2 j, roundFn_append 3 j⟩⟩

/-! ### The step primitive -/

/-- The word of a sum of four words' numbers is the words' sum mod 2^32. -/
theorem ofNat_sum_toNat (a f x t : Word) :
    BitVec.ofNat 32 (a.toNat + f.toNat + x.toNat + t.toNat) = a + f + x + t := by
  simp only [BitVec.ofNat_add, BitVec.ofNat_toNat, BitVec.setWidth_eq]

/-- Settles O44: the shifts of `rotl32` are a rotation, and a sum of words is the sum of their numbers mod 2^32. -/
theorem combineIsAddRotateAdd : Obligations.CombineIsAddRotateAdd := by
  intro f a b x t s _ hs
  rw [combine, BitVec.toNat_add, rotl32_eq_rotateLeft _ (by omega), ofNat_sum_toNat]

end Sys2Proof.Machine

/-! The digest of a message of one block, and of the empty message (42_padder_digest.md R143, R146, R147). -/

namespace Sys2Proof.Machine

/-- A message below 56 bytes has one block, so one Compress from IV is its digest (42_padder_digest.md R143, R146). -/
theorem digestWords_of_length_lt {m : List Byte} (h : m.length < 56) :
    digestWords m = compress iv (blockAt (pad m) 0) := by
  have oneBlock : (pad m).length / 64 = 1 := by rw [pad_length, blockCount]; omega
  rw [digestWords, oneBlock, chainAfter_succ, chainAfter_zero]

/-- The padded empty message is the marker and 63 zeros (42_padder_digest.md R147). -/
theorem pad_nil : pad [] = 0x80 :: zeros 63 := by decide

/-- The marker is the low byte of word 0, and every other byte is 0 (42_padder_digest.md R147). -/
theorem blockAt_pad_nil : blockAt (pad []) 0 = #v[0x00000080, 0, 0, 0, 0, 0, 0, 0, 0, 0, 0, 0, 0, 0, 0, 0] := by
  rw [pad_nil]
  decide

/-- The 64 round steps and the feed-forward on that block, evaluated (42_padder_digest.md R147). -/
theorem compress_iv_emptyBlock :
    compress iv #v[0x00000080, 0, 0, 0, 0, 0, 0, 0, 0, 0, 0, 0, 0, 0, 0, 0] =
      #v[0xd98c1dd4, 0x04b2008f, 0x980980e9, 0x7e42f8ec] := by
  decide +kernel

theorem digestWords_nil : digestWords [] = #v[0xd98c1dd4, 0x04b2008f, 0x980980e9, 0x7e42f8ec] := by
  rw [digestWords_of_length_lt (by decide), blockAt_pad_nil, compress_iv_emptyBlock]

/-- Settles O52: one block, known word by word, its Compress, and the bytes of the four words that gives. -/
theorem emptyMessageDigest : Obligations.EmptyMessageDigest := by
  refine ⟨blockAt_pad_nil, digestWords_of_length_lt (by decide), ?_⟩
  rw [digestBytes, digestWords_nil]
  decide

end Sys2Proof.Machine

/-! SUPPORT. What completes a host command, said once for all of them: the frame, the STATUS word, and the data
registers of a command that changes none (44_commands.md R177). -/

namespace Sys2Proof.Machine

/-! ### Completion -/

theorem exec_command_next {i : Instr} (hi : isRound i = false) (s : State) : ∃ t, exec i s = .next t := by
  obtain ⟨e, u, -, h⟩ := exec_command hi s
  exact ⟨_, h⟩

/-- A host command leaves everything but STATUS, the data registers and the engine's place as it was. -/
theorem exec_command_frame {i : Instr} (hi : isRound i = false) {s t : State} (h : exec i s = .next t) :
    CommandFrame s t := by
  obtain ⟨e, u, hc, he⟩ := exec_command hi s
  obtain rfl : complete e u = t := by simpa [he] using h
  exact ⟨hc.ie, hc.msgAddr, hc.msgLen, hc.keyAddr, hc.keyLen, hc.cmd, fun a => congrArg (Memory.read · a) hc.mem,
    hc.absent, hc.device, hc.mmioBase, hc.inputs, hc.rdata⟩

/-- A host command completes with the error code that it leaves in ECODE (44_commands.md R177). -/
theorem exec_command_completed {i : Instr} (hi : isRound i = false) {s t : State} (h : exec i s = .next t)
    {e : ErrCode} (hcode : t.status.ecode = e) : CompletedWith e s t := by
  obtain ⟨e', u, hc, he⟩ := exec_command hi s
  obtain rfl : complete e' u = t := by simpa [he] using h
  obtain rfl : e' = e := hcode
  have hovr : u.status.ovr = s.status.ovr := by rw [hc.status]
  exact ⟨rfl, rfl, by cases e' <;> rfl, rfl, hovr⟩

/-- Bit 3 of the STATUS word is OVR alone (10_state.md R22). -/
theorem statusWord_and_ovr (b : Bool) (st : Status) :
    statusWord b st &&& 0x8 = statusWord false ⟨false, false, st.ovr, .none⟩ := by
  obtain ⟨done, err, ovr, ecode⟩ := st
  cases ecode <;> (revert b done err ovr; decide)

/-- The STATUS word after a completion: OVR as before, and BUSY = 0, DONE, ERR and ECODE of the error code. -/
theorem CompletedWith.statusWord_eq {e : ErrCode} {s t : State} (h : CompletedWith e s t) :
    t.statusWord = (s.statusWord &&& 0x8) ||| statusWord false ⟨true, decide (e ≠ .none), false, e⟩ := by
  have hst : t.status = ⟨true, decide (e ≠ .none), s.status.ovr, e⟩ := by
    rw [← h.done, ← h.err, ← h.ovr]
    exact congrArg (Status.mk _ _ _) h.ecode
  have hbusy : t.busy = false := by rw [State.busy, h.stage]; rfl
  rw [State.statusWord, State.statusWord, hst, hbusy, statusWord_and_ovr]
  generalize s.status.ovr = ovr
  cases e <;> (revert ovr; decide)

theorem complete_dataKept (e : ErrCode) (s : State) : DataKept s (complete e s) := ⟨rfl, rfl, rfl, rfl, rfl, rfl, rfl⟩

/-- A command that ends with a check error has that code and keeps all data registers (60_exceptions.md R217). -/
theorem raiseError_completed {i : Instr} (hi : isRound i = false) {e : ErrCode} {s t : State}
    (hx : exec i s = .next (raiseError e s)) (ht : exec i s = .next t) : CompletedWith e s t ∧ DataKept s t := by
  obtain rfl : raiseError e s = t := by simpa [hx] using ht
  exact ⟨exec_command_completed hi ht rfl, complete_dataKept e s⟩

/-- The same of a command that ends with `check`'s error wherever `check` finds one. -/
theorem check_failed_completed {i : Instr} (hi : isRound i = false) {check e : ErrCode} {s t : State}
    (hx : check ≠ .none → exec i s = .next (raiseError check s)) (he : check = e) (hne : e ≠ .none)
    (ht : exec i s = .next t) : CompletedWith e s t ∧ DataKept s t := by
  subst he
  exact raiseError_completed hi (hx hne) ht

/-! ### Operands -/

/-- A data register read word by word gives a reading of it (44_commands.md R179). -/
theorem reading_value {n : Nat} (r : Vector Reg n) (d : Nat → Word) :
    Reading r (Vector.ofFn fun j => r[j].value (d j.val)) := by
  intro j hj v hv
  simp [hv, Reg.value]

theorem reading_accOperand (s : State) : Reading s.acc s.accOperand := reading_value s.acc (Config.drawWord s.draws ·)

theorem reading_xbufOperand (s : State) : Reading s.xbuf s.xbufOperand :=
  reading_value s.xbuf fun j => Config.drawWord s.draws (4 + j)

/-! ### The checks of a region -/

theorem regionError_of_long {pre a n : Nat} (h : 2 ^ 29 ≤ pre + n) : regionError pre a n = .tooLarge := if_pos h

theorem regionError_of_past_end {pre a n : Nat} (h : ¬2 ^ 29 ≤ pre + n) (ha : 2 ^ 32 < a + n) :
    regionError pre a n = .addrRange := (if_neg h).trans (if_pos ha)

theorem regionError_of_inside {pre a n : Nat} (h : ¬2 ^ 29 ≤ pre + n) (ha : ¬2 ^ 32 < a + n) :
    regionError pre a n = .none := (if_neg h).trans (if_neg ha)

/-- HMAC checks the key first (60_exceptions.md R218). -/
theorem hmacError_of_keyError {s : State} {e : ErrCode} (h : s.keyError = e) (he : e ≠ .none) : s.hmacError = e := by
  unfold State.hmacError
  rw [h]
  cases e with
  | none => exact absurd rfl he
  | illegalCmd | tooLarge | addrRange | busErr => rfl

theorem hmacError_of_key_passed {s : State} (h : s.keyError = .none) :
    s.hmacError = regionError 64 s.msgAddr.toNat s.msgLen.toNat := by
  unfold State.hmacError
  rw [h]

/-! ### The bytes of a region -/

/-- A plain byte is MEM's (20_memory.md R68, R70). -/
theorem sourceByte_of_plain {s : State} {a : Nat} (h : PlainByte s a) : s.sourceByte a = Memory.read s.mem a := by
  obtain ⟨hrace, hdev⟩ := h
  have noDevice : s.device.any (fun r => r.has a) = false := by simpa using hdev
  simp [State.sourceByte, noDevice, (lookupByte_eq_none_iff s.racing a).2 hrace]

theorem memRead_sourceBytes {s : State} {a n : Nat} {m : List Byte} (h : s.memRead a n = some m) :
    SourceBytes s a n m := by
  refine ⟨memRead_length h, fun i hi hplain => ?_⟩
  obtain ⟨-, rfl⟩ := (memRead_eq_some_iff s a n m).1 h
  simp [hi, sourceByte_of_plain hplain]

theorem memRead_eq_none_of_not_busOkOn {s : State} {a n : Nat} (h : ¬BusOkOn s a n) : s.memRead a n = none := by
  simpa [memRead_eq_none_iff, BusOkOn] using h

theorem exists_memRead_of_busOkOn {s : State} {a n : Nat} (h : BusOkOn s a n) : ∃ m, s.memRead a n = some m :=
  ⟨_, (memRead_eq_some_iff s a n _).2 ⟨h, rfl⟩⟩

theorem meetsDevice_of_noSideEffects {s : State} {a n : Nat} (h : NoSideEffects s a n) : s.meetsDevice a n = false := by
  rw [← Bool.not_eq_true, meetsDevice_iff]
  rintro ⟨i, hi, hany⟩
  obtain ⟨r, hr, hhas⟩ := List.any_eq_true.1 hany
  exact absurd hhas (by simp [h i hi r hr])

/-! ### Results -/

@[simp] theorem resultRegs_of_plain (d : Quad) : resultRegs false d = knownQuad d := rfl

@[simp] theorem keyRegs_of_plain (k : List Byte) : keyRegs false k = knownBlock (toBlock (normKey k)) := by
  simp [keyRegs]

/-- DIGEST keeps KBUF, however it ends (44_commands.md R183). -/
theorem exec_digest_kbuf {s t : State} (ht : exec .digest s = .next t) : t.kbuf = s.kbuf := by
  by_cases he : s.digestError = .none
  · cases hm : s.message with
    | some m => rw [exec_digest_ok he hm] at ht; cases ht; rfl
    | none => rw [exec_digest_bus he hm] at ht; cases ht; rfl
  · rw [exec_digest_check he] at ht; cases ht; rfl

/-- DIGEST where an address of the message does not answer (60_exceptions.md R214, R217). -/
theorem exec_digest_not_busOk {s t : State} (he : s.digestError = .none)
    (hb : ¬BusOkOn s s.msgAddr.toNat s.msgLen.toNat) (ht : exec .digest s = .next t) :
    CompletedWith .busErr s t ∧ t.digest = s.digest ∧ t.acc = anyQuad ∧ t.xbuf = anyBlock := by
  obtain rfl : raiseBusErr false s = t := by
    simpa [exec_digest_bus he (memRead_eq_none_of_not_busOkOn hb)] using ht
  exact ⟨exec_command_completed rfl ht rfl, rfl, rfl, rfl⟩

/-- DIGEST of a message that is read whole (44_commands.md R183). -/
theorem exec_digest_busOk {s t : State} (he : s.digestError = .none)
    (hb : BusOkOn s s.msgAddr.toNat s.msgLen.toNat) (ht : exec .digest s = .next t) :
    CompletedWith .none s t ∧ t.acc = t.digest ∧ t.xbuf = anyBlock ∧
      ∃ m, SourceBytes s s.msgAddr.toNat s.msgLen.toNat m ∧
        (NoSideEffects s s.msgAddr.toNat s.msgLen.toNat → t.digest = knownQuad (digestWords m)) := by
  obtain ⟨m, hm⟩ := exists_memRead_of_busOkOn hb
  obtain rfl : finishDigest _ s = t := by simpa [exec_digest_ok he hm] using ht
  refine ⟨exec_command_completed rfl ht rfl, rfl, rfl, m, memRead_sourceBytes hm, fun hn => ?_⟩
  rw [finishDigest_digest, meetsDevice_of_noSideEffects hn, resultRegs_of_plain]

/-- HMAC where an address of the key or of the message does not answer (60_exceptions.md R214, R217). -/
theorem exec_hmac_not_busOk {s t : State} (he : s.hmacError = .none)
    (hb : ¬(BusOkOn s s.keyAddr.toNat s.keyLen.toNat ∧ BusOkOn s s.msgAddr.toNat s.msgLen.toNat))
    (ht : exec .hmac s = .next t) :
    CompletedWith .busErr s t ∧ t.digest = s.digest ∧ t.acc = anyQuad ∧ t.xbuf = anyBlock ∧ t.kbuf = anyBlock := by
  have unread : s.key = none ∨ s.message = none :=
    (not_and_or.1 hb).imp memRead_eq_none_of_not_busOkOn memRead_eq_none_of_not_busOkOn
  obtain rfl : raiseBusErr true s = t := by simpa [exec_hmac_bus he unread] using ht
  exact ⟨exec_command_completed rfl ht rfl, rfl, rfl, rfl, rfl⟩

/-- HMAC of a key and a message that are read whole (44_commands.md R184). -/
theorem exec_hmac_busOk {s t : State} (he : s.hmacError = .none)
    (hbk : BusOkOn s s.keyAddr.toNat s.keyLen.toNat) (hbm : BusOkOn s s.msgAddr.toNat s.msgLen.toNat)
    (ht : exec .hmac s = .next t) :
    CompletedWith .none s t ∧ t.acc = t.digest ∧ t.xbuf = anyBlock ∧
      ∃ k m, SourceBytes s s.keyAddr.toNat s.keyLen.toNat k ∧ SourceBytes s s.msgAddr.toNat s.msgLen.toNat m ∧
        (NoSideEffects s s.keyAddr.toNat s.keyLen.toNat → t.kbuf = knownBlock (toBlock (normKey k))) ∧
        (NoSideEffects s s.keyAddr.toNat s.keyLen.toNat → NoSideEffects s s.msgAddr.toNat s.msgLen.toNat →
          t.digest = knownQuad (hmacWords k m)) := by
  obtain ⟨k, hk⟩ := exists_memRead_of_busOkOn hbk
  obtain ⟨m, hm⟩ := exists_memRead_of_busOkOn hbm
  obtain rfl : finishDigest _ { s with kbuf := _ } = t := by simpa [exec_hmac_ok he hk hm] using ht
  have plainKey : NoSideEffects s s.keyAddr.toNat s.keyLen.toNat → s.keyOnDevice = false :=
    meetsDevice_of_noSideEffects
  refine ⟨exec_command_completed rfl ht rfl, rfl, rfl, k, m, memRead_sourceBytes hk, memRead_sourceBytes hm,
    fun hnk => ?_, fun hnk hnm => ?_⟩
  · rw [finishDigest_kbuf, plainKey hnk, keyRegs_of_plain]
  · rw [finishDigest_digest, plainKey hnk, meetsDevice_of_noSideEffects hnm, Bool.or_self, resultRegs_of_plain]

/-- An opcode from 8 on is reserved (30_encoding.md R82). -/
theorem decodeOp_reserved : ∀ op : BitVec 4, 8 ≤ op.toNat → decodeOp op = .illegalOp (op.extractLsb' 0 3) := by decide

/-- Both kinds of reserved word end with ILLEGAL_CMD and nothing else (44_commands.md R188). -/
theorem exec_illegal {i : Instr} (h : (∃ low, i = .illegalOp low) ∨ ∃ rsv op, i = .illegalRsv rsv op) (s : State) :
    isRound i = false ∧ exec i s = .next (raiseError .illegalCmd s) := by
  rcases h with ⟨low, rfl⟩ | ⟨rsv, op, rfl⟩
  · exact ⟨rfl, exec_illegalOp low s⟩
  · exact ⟨rfl, exec_illegalRsv rsv op s⟩

end Sys2Proof.Machine

/-! The statements of the commands NOP, COMPRESS, DIGEST and HMAC, of the reserved words and of acceptance
(44_commands.md). -/

namespace Sys2Proof.Machine

/-- Settles O6: NOP is a completion and nothing else. -/
theorem nopCompletesAndChangesNothingElse : Obligations.NopCompletesAndChangesNothingElse := by
  refine ⟨by decide, fun s => ?_⟩
  have hx := exec_nop s
  have hc : CompletedWith .none s _ := exec_command_completed rfl hx rfl
  exact ⟨_, hx, hc, hc.statusWord_eq, exec_command_irq rfl hx, exec_command_frame rfl hx, complete_dataKept .none s⟩

/-- Settles O8: the readings are the operands that the command takes before it writes ACC. -/
theorem compressUpdatesAcc : Obligations.CompressUpdatesAcc := by
  refine ⟨by decide, fun s => ?_⟩
  have hx := exec_compress s
  exact ⟨_, s.accOperand, s.xbufOperand, hx, reading_accOperand s, reading_xbufOperand s, rfl, rfl, rfl, rfl,
    exec_command_completed rfl hx rfl, exec_command_frame rfl hx⟩

/-- Settles O9: the two checks of the message region, then its reads. -/
theorem digestFollowsItsRule : Obligations.DigestFollowsItsRule := by
  refine ⟨by decide, fun s => ?_⟩
  obtain ⟨t, ht⟩ := exec_command_next (i := .digest) rfl s
  refine ⟨t, ht, exec_command_frame rfl ht, exec_digest_kbuf ht, ?_⟩
  intro a n
  split_ifs with hlen hend
  · exact check_failed_completed rfl exec_digest_check (regionError_of_long (by omega)) nofun ht
  · exact check_failed_completed rfl exec_digest_check (regionError_of_past_end (by omega) hend) nofun ht
  · have passed : s.digestError = .none := regionError_of_inside (by omega) hend
    exact ⟨fun hb => exec_digest_not_busOk passed hb ht, fun hb => exec_digest_busOk passed hb ht⟩

/-- Settles O10: the two checks of the key region, the two of the message region, then the reads of both. -/
theorem hmacFollowsItsRule : Obligations.HmacFollowsItsRule := by
  refine ⟨by decide, fun s => ?_⟩
  obtain ⟨t, ht⟩ := exec_command_next (i := .hmac) rfl s
  refine ⟨t, ht, exec_command_frame rfl ht, ?_⟩
  intro ka kl a n
  split_ifs with hklen hkend hlen hend
  · exact check_failed_completed rfl exec_hmac_check
      (hmacError_of_keyError (regionError_of_long (by omega)) nofun) nofun ht
  · exact check_failed_completed rfl exec_hmac_check
      (hmacError_of_keyError (regionError_of_past_end (by omega) hkend) nofun) nofun ht
  all_goals
    have checked : s.hmacError = regionError 64 a n :=
      hmacError_of_key_passed (regionError_of_inside (by omega) hkend)
  · exact check_failed_completed rfl exec_hmac_check (checked.trans (regionError_of_long hlen)) nofun ht
  · exact check_failed_completed rfl exec_hmac_check (checked.trans (regionError_of_past_end hlen hend)) nofun ht
  · have passed : s.hmacError = .none := checked.trans (regionError_of_inside hlen hend)
    exact ⟨fun hb => exec_hmac_not_busOk passed hb ht, fun hbk hbm => exec_hmac_busOk passed hbk hbm ht⟩

/-- Settles O14: OP from 8 on where RSV is 0, or RSV not 0; both end with the same error. -/
theorem reservedWordsReportIllegalCmd : Obligations.ReservedWordsReportIllegalCmd := by
  refine ⟨fun w hw => ?_, fun i s hi => ?_⟩
  · unfold decodeCmd
    by_cases hrsv : rsvField w = 0
    · have hop : 8 ≤ (opField w).toNat := by
        rw [opField_toNat]
        have := (rsvField_eq_zero w).1 hrsv
        omega
      exact .inl ⟨_, by rw [if_pos hrsv, decodeOp_reserved _ hop]⟩
    · exact .inr ⟨_, _, if_neg hrsv⟩
  · obtain ⟨hcmd, hx⟩ := exec_illegal hi s
    obtain ⟨hc, hd⟩ := raiseError_completed hcmd hx hx
    exact ⟨_, hx, hc, hc.statusWord_eq, exec_command_frame hcmd hx, hd⟩

/-- Settles O22: the dropped write while BUSY, and `accept` while idle. -/
theorem cmdWriteIsAcceptedOrDropped : Obligations.CmdWriteIsAcceptedOrDropped := by
  intro s v rest hw
  refine ⟨_, step_write hw, fun hb => hostWrite_dropped (s := { s with inputs := rest }) hb rfl v, fun hb => ?_⟩
  rw [hostWrite_cmd_idle (s := { s with inputs := rest }) hb]
  exact ⟨rfl, Bool.and_false s.ie, rfl⟩

end Sys2Proof.Machine

/-! The reset input (70_reset_and_hazards.md R240). -/

namespace Sys2Proof.Machine

/-- A step at the reset input is the block's reset. -/
theorem step_reset {s : State} {rest : List Input} (h : s.inputs = .reset :: rest) :
    step s = .next (resetBlock { s with inputs := rest }) := by
  simp only [step, h]

/-- Settles O33: `resetBlock` gives every register its value in `State.reset`, which `resetValues` names, and keeps the
memory. -/
theorem resetInputRestoresResetValues : Obligations.ResetInputRestoresResetValues := by
  intro s rest h
  obtain ⟨hstatus, hctrl, hmsgAddr, hmsgLen, hkeyAddr, hkeyLen, hacc, hdigest, hxbuf, hkbuf, hstage, hstep, hirq⟩ :=
    resetValues
  exact ⟨_, step_reset h, hstatus, hctrl, hmsgAddr, hmsgLen, hkeyAddr, hkeyLen, hacc, hdigest, hxbuf, hkbuf, hstage,
    hstep, hirq, rfl, rfl, fun _ => rfl⟩

end Sys2Proof.Machine

/-! The encoding's two directions, and what a step takes as its instruction (30_encoding.md R80 to R88, 44_commands.md
R176). -/

namespace Sys2Proof

/-! ### Command words -/

@[simp] theorem decodeCmd_cmdWord_zero (op : BitVec 4) : decodeCmd (cmdWord 0 op) = decodeOp op := by
  simp only [decodeCmd, rsvField_cmdWord, opField_cmdWord, if_true]

theorem decodeCmd_cmdWord_of_ne {rsv : BitVec 28} (h : rsv ≠ 0) (op : BitVec 4) :
    decodeCmd (cmdWord rsv op) = .illegalRsv rsv op := by
  simp only [decodeCmd, rsvField_cmdWord, opField_cmdWord, h, if_false]

/-- An opcode with bit 3 set is reserved, and its low bits are kept (30_encoding.md R82). -/
theorem decodeOp_high : ∀ low : BitVec 3, decodeOp (1#1 ++ low) = .illegalOp low := by decide

/-- The opcode map R82 has every opcode once. -/
theorem encode_decodeOp : ∀ op : BitVec 4,
    WellFormed (decodeOp op) = true ∧ encode (decodeOp op) = .cmd32 (cmdWord 0 op) := by decide

theorem encode_decodeCmd (w : Word) : WellFormed (decodeCmd w) = true ∧ encode (decodeCmd w) = .cmd32 w := by
  rw [← cmdWord_fields w]
  by_cases h : rsvField w = 0
  · rw [h, decodeCmd_cmdWord_zero]
    exact encode_decodeOp _
  · rw [decodeCmd_cmdWord_of_ne h]
    exact ⟨by simpa [WellFormed] using h, rfl⟩

/-! ### Step indices -/

@[simp] theorem rndField_stepIndex (r : BitVec 2) (j : BitVec 4) : rndField (stepIndex r j) = r :=
  Machine.rndField_append r j

@[simp] theorem jField_stepIndex (r : BitVec 2) (j : BitVec 4) : jField (stepIndex r j) = j :=
  BitVec.extractLsb'_append_eq_right

@[simp] theorem stepIndex_fields : ∀ i : BitVec 6, stepIndex (rndField i) (jField i) = i := by
  unfold stepIndex rndField jField
  decide

theorem decodeStep_stepIndex (j : BitVec 4) :
    decodeStep (stepIndex 0 j) = .ff j ∧ decodeStep (stepIndex 1 j) = .gg j ∧ decodeStep (stepIndex 2 j) = .hh j ∧
      decodeStep (stepIndex 3 j) = .ii j := by
  simp only [decodeStep, rndField_stepIndex, jField_stepIndex]
  exact ⟨rfl, rfl, rfl, rfl⟩

theorem round_cases : ∀ r : BitVec 2, r = 0 ∨ r = 1 ∨ r = 2 ∨ r = 3 := by decide

theorem encode_decodeStep (i : BitVec 6) : WellFormed (decodeStep i) = true ∧ encode (decodeStep i) = .step6 i := by
  rw [← stepIndex_fields i]
  obtain ⟨hff, hgg, hhh, hii⟩ := decodeStep_stepIndex (jField i)
  rcases round_cases (rndField i) with h | h | h | h <;> rw [h]
  · rw [hff]; exact ⟨rfl, rfl⟩
  · rw [hgg]; exact ⟨rfl, rfl⟩
  · rw [hhh]; exact ⟨rfl, rfl⟩
  · rw [hii]; exact ⟨rfl, rfl⟩

/-- Settles O1: the command rows by their two fields, the step rows by their round. -/
theorem decodeOfEncode : Obligations.DecodeOfEncode := by
  intro i hi
  cases i with
  | nop | init | compress | digest | hmac | keyprep | ipad | opad => exact decodeCmd_cmdWord_zero _
  | illegalOp low => exact (decodeCmd_cmdWord_zero _).trans (decodeOp_high low)
  | illegalRsv rsv op => exact decodeCmd_cmdWord_of_ne (by simpa [WellFormed] using hi) op
  | ff j => exact (decodeStep_stepIndex j).1
  | gg j => exact (decodeStep_stepIndex j).2.1
  | hh j => exact (decodeStep_stepIndex j).2.2.1
  | ii j => exact (decodeStep_stepIndex j).2.2.2

/-- Settles O2: a command word by its fields, a step index by its round. -/
theorem encodeOfDecode : Obligations.EncodeOfDecode := ⟨encode_decodeCmd, encode_decodeStep⟩

/-- Settles O3: each word is decoded by evaluation. -/
theorem wordsOfTheTables : Obligations.WordsOfTheTables := by
  unfold Obligations.WordsOfTheTables
  decide

end Sys2Proof

namespace Sys2Proof.Machine

/-! ### The moves of the engine by where it stands -/

theorem step_of_no_input {s : State} (h : s.inputs = []) : step s = engineMove s := by
  simp only [step, h]

theorem step_engine {s : State} {rest : List Input} (h : s.inputs = .engine :: rest) :
    step s = engineMove { s with inputs := rest } := by
  simp only [step, h]

theorem engineMove_idle {s : State} (h : s.stage = .idle) : engineMove s = .next s := by
  simp only [engineMove, h]

theorem engineMove_accepted {s : State} (h : s.stage = .accepted) : engineMove s = exec (decodeCmd s.cmd) s := by
  simp only [engineMove, h, wholeEffect]

theorem engineMove_blockStart {s : State} (h : s.stage = .blockStart) : engineMove s = orWhole (startBlock s) s := by
  simp only [engineMove, h]

theorem engineMove_rounds {s : State} (h : s.stage = .rounds) : engineMove s = exec (decodeStep s.stepIdx) s := by
  simp only [engineMove, h]

theorem engineMove_feedForward {s : State} (h : s.stage = .feedForward) : engineMove s = orWhole (endBlock s) s := by
  simp only [engineMove, h]

/-- Settles O5: the move of the accepted stage and of the rounds, with no input and with an engine move. -/
theorem stepRunsTheDecodedInstruction : Obligations.StepRunsTheDecodedInstruction := by
  refine ⟨fun s h => ?_, fun s rest h => ?_⟩
  · rw [step_of_no_input h]
    exact ⟨engineMove_accepted, engineMove_rounds⟩
  · rw [step_engine h]
    exact ⟨engineMove_accepted (s := { s with inputs := rest }), engineMove_rounds (s := { s with inputs := rest })⟩

/-! ### A placed word -/

/-- A table row's word as a CMD word or as a step index (30_encoding.md R80). -/
theorem decodeTableWord_eq_some {nbits w : Nat} {i : Instr} (h : decodeTableWord nbits w = some i) :
    (formOfBits nbits = .cmd32 ∧ decodeCmd (BitVec.ofNat 32 w) = i) ∨
      (formOfBits nbits = .step6 ∧ decodeStep (BitVec.ofNat 6 w) = i) := by
  unfold decodeTableWord at h
  cases hf : formOfBits nbits with
  | cmd32 =>
    simp only [layoutBytes, hf, decodeBytes, wordOfBytes_byteOfNat, Option.ite_none_right_eq_some,
      Option.some.injEq] at h
    exact .inl ⟨rfl, h.2⟩
  | step6 =>
    have index : (byteOfNat w 0).extractLsb' 0 6 = BitVec.ofNat 6 w := by
      apply BitVec.eq_of_toNat_eq
      simp only [byteOfNat, BitVec.extractLsb'_toNat, BitVec.toNat_ofNat, Nat.shiftRight_zero]
      omega
    simp only [layoutBytes, hf, decodeBytes, index, Option.ite_none_right_eq_some] at h
    obtain ⟨-, h⟩ := h
    split at h
    · rename_i hok
      split at hok <;> cases hok
      exact .inr ⟨rfl, Option.some.inj h⟩
    · cases h

/-- Settles O4: a CMD word is placed as an accepted command, a step index as STEP in the rounds. -/
theorem placedWordRuns : Obligations.PlacedWordRuns := by
  intro s nbits w i h
  rcases decodeTableWord_eq_some h with ⟨hf, rfl⟩ | ⟨hf, rfl⟩
  · simp only [State.withFetchWord, hf]
    rw [step_of_no_input rfl, engineMove_accepted rfl]
    rfl
  · simp only [State.withFetchWord, hf]
    rw [step_of_no_input rfl, engineMove_rounds rfl]

end Sys2Proof.Machine

/-! The machine's invariant: kept by each kind of step, and whole-machine rules about DIGEST, the latched command and an
idle engine (10_state.md, 41_compression_core.md section 4, 60_exceptions.md section 1). -/

namespace Sys2Proof.Machine

/-! ### The invariant by where the engine stands -/

theorem busy_of_ne_idle {s : State} (h : s.stage ≠ .idle) : s.busy = true := by
  unfold State.busy
  cases hs : s.stage with
  | idle => exact absurd hs h
  | accepted | blockStart | rounds | feedForward => rfl

theorem stage_of_not_busy {s : State} (h : s.busy = false) : s.stage = .idle := by
  by_contra hne
  simp [busy_of_ne_idle hne] at h

theorem ne_idle_of_busy {s : State} (h : s.busy = true) : s.stage ≠ .idle := by
  intro hs
  simp [State.busy, hs, Stage.busy] at h

/-- What the invariant says of an idle engine is all it says of that state. -/
theorem Inv.of_idle {s : State} (hs : s.stage = .idle) (hmem : Memory.wf s.mem = true)
    (herr : s.status.err = true ↔ s.status.ecode ≠ .none) (hstart : s.racing = [] ∧ s.pass = .key ∧ s.block = 0)
    (hstep : s.stepIdx = 0) : Inv s where
  memory := hmem
  errCode := herr
  busyClear hb := absurd hs (ne_idle_of_busy hb)
  idleStart _ := hstart
  stepOutside _ := hstep
  runs h := by simp [hs] at h
  compressBlock h := by simp [hs] at h
  inRounds h := by simp [hs] at h
  roundsDone h := by simp [hs] at h

/-- A completion meets the invariant, whatever the data registers hold. -/
theorem Completes.inv {i : Instr} {s t : State} (h : Completes i s t) (hi : Inv s) : Inv t := by
  obtain ⟨e, u, hc, -, rfl⟩ := h
  refine .of_idle rfl (by simpa [hc.mem] using hi.memory) ?_ ⟨rfl, rfl, rfl⟩ rfl
  cases e <;> simp [Status.atCompletion]

/-- A move inside a step-level run keeps the clauses on memory and STATUS; the others speak of its own stage. -/
theorem Inv.of_move {s t : State} (hi : Inv s) (hb : s.busy = true) (hk : MoveKeeps s t)
    (hstep : t.stage ≠ .rounds → t.stepIdx = 0)
    (hruns : t.stage ≠ .accepted → t.job.isSome = true ∧ ∃ q, t.acc = knownQuad q)
    (hblock : t.stage = .blockStart → t.job = some .compress → ∃ x, t.xbuf = knownBlock x)
    (hrounds : t.stage = .rounds →
      ∃ x, t.xbuf = knownBlock x ∧ t.acc = knownQuad t.chain ∧ t.work = workAfter t.chain x t.stepIdx.toNat)
    (hdone : t.stage = .feedForward →
      ∃ x, t.xbuf = knownBlock x ∧ t.acc = knownQuad t.chain ∧ t.work = workAfter t.chain x 64) : Inv t where
  memory := by simpa [hk.mem] using hi.memory
  errCode := by simpa [hk.status] using hi.errCode
  busyClear _ := by simpa [hk.status] using hi.busyClear hb
  idleStart h := absurd h (ne_idle_of_busy hk.busy)
  stepOutside := hstep
  runs h := hruns (by rcases h with h | h | h <;> simp [h])
  compressBlock := hblock
  inRounds := hrounds
  roundsDone := hdone

/-- A move to a block's start: the datapath's job, a known chaining value and, for COMPRESS, the block. -/
theorem Inv.of_blockStart {s t : State} (hi : Inv s) (hb : s.busy = true) (hk : MoveKeeps s t)
    (ht : t.stage = .blockStart) (hstep : t.stepIdx = 0) (hjob : t.job.isSome = true) (hacc : ∃ q, t.acc = knownQuad q)
    (hblock : t.job = some .compress → ∃ x, t.xbuf = knownBlock x) : Inv t :=
  hi.of_move hb hk (fun _ => hstep) (fun _ => ⟨hjob, hacc⟩) (fun _ => hblock) (by simp [ht]) (by simp [ht])

/-! ### The moves of a step-level run -/

/-- A move into a step-level run leaves a known chaining value and, for COMPRESS, a known block. -/
theorem beginStepLevel_known {s t : State} (h : beginStepLevel s = some t) :
    t.stepIdx = s.stepIdx ∧ s.job.isSome = true ∧ (∃ q, t.acc = knownQuad q) ∧
      (s.job = some .compress → ∃ x, t.xbuf = knownBlock x) := by
  unfold beginStepLevel at h
  split at h <;> rename_i hj
  · split at h <;> cases h
    rename_i hknown
    obtain ⟨hacc, hxbuf⟩ := Bool.and_eq_true_iff.1 hknown
    exact ⟨rfl, by simp [hj], ⟨_, acc_of_accKnown hacc⟩, fun _ => ⟨_, xbuf_of_xbufKnown hxbuf⟩⟩
  · split at h <;> cases h
    exact ⟨rfl, by simp [hj], ⟨_, rfl⟩, by simp [hj]⟩
  · split at h <;> cases h
    exact ⟨rfl, by simp [hj], ⟨_, rfl⟩, by simp [hj]⟩
  · split at h
    · split at h
      · cases h
        exact ⟨rfl, by simp [hj], ⟨_, rfl⟩, by simp [hj]⟩
      · obtain ⟨k, -, rfl⟩ := Option.map_eq_some_iff.1 h
        exact ⟨rfl, by simp [hj], ⟨_, rfl⟩, by simp [hj]⟩
    · cases h
  · cases h

/-- A block's start loads the chaining value from ACC and, but for COMPRESS, the block of the pass (R105, R121). -/
theorem startBlock_eq_some {s t : State} (h : startBlock s = some t) :
    s.accKnown = true ∧ ((s.job = some .compress ∧ t = loadChain s) ∨
      ∃ j m, s.job = some j ∧ passStream s j = some m ∧
        t = loadChain { s with xbuf := knownBlock (blockAt (pad m) s.block) }) := by
  unfold startBlock at h
  split at h
  · rename_i hacc
    refine ⟨hacc, ?_⟩
    split at h <;> rename_i hj
    · exact .inl ⟨hj, (Option.some.inj h).symm⟩
    · obtain ⟨m, hm, rfl⟩ := Option.map_eq_some_iff.1 h
      exact .inr ⟨_, m, hj, hm, rfl⟩
    · cases h
  · cases h

/-- Loading a known chaining value starts the rounds at step 0 of the block (41_compression_core.md R121). -/
theorem loadChain_inRounds {s t : State} (hacc : s.accKnown = true) {r : Vector Reg 16}
    (ht : t = loadChain { s with xbuf := r }) (x : Block) :
    t.acc = knownQuad t.chain ∧ t.work = workAfter t.chain x t.stepIdx.toNat := by
  subst ht
  exact ⟨acc_of_accKnown (s := { s with xbuf := r }) hacc, rfl⟩

theorem MoveKeeps.job {s t : State} (h : MoveKeeps s t) : t.job = s.job := by rw [State.job, h.cmd, State.job]

theorem startBlock_inv {s t : State} (hi : Inv s) (hs : s.stage = .blockStart) (h : startBlock s = some t) : Inv t := by
  obtain ⟨hk, ht⟩ := startBlock_keeps h
  have hb : s.busy = true := busy_of_ne_idle (by simp [hs])
  obtain ⟨hacc, hload⟩ := startBlock_eq_some h
  have hjob : t.job.isSome = true := by
    rw [hk.job]
    rcases hload with ⟨hj, -⟩ | ⟨j, m, hj, -⟩ <;> rw [hj] <;> rfl
  have hrounds : ∃ x, t.xbuf = knownBlock x ∧ t.acc = knownQuad t.chain ∧
      t.work = workAfter t.chain x t.stepIdx.toNat := by
    rcases hload with ⟨hj, ht⟩ | ⟨j, m, -, -, ht⟩
    · obtain ⟨x, hx⟩ := hi.compressBlock hs hj
      exact ⟨x, by rw [ht]; exact hx, loadChain_inRounds hacc ht x⟩
    · exact ⟨_, by rw [ht]; rfl, loadChain_inRounds hacc ht _⟩
  obtain ⟨x, hx, hchain, hwork⟩ := hrounds
  exact hi.of_move hb hk (by simp [ht]) (fun _ => ⟨hjob, _, hchain⟩) (by simp [ht]) (fun _ => ⟨x, hx, hchain, hwork⟩)
    (by simp [ht])

/-- A round step on a known block is the step of the CompressionCore, and draws nothing (41_compression_core.md
R126). -/
theorem roundStep_of_known {s : State} {x : Block} (hx : s.xbuf = knownBlock x) (i : BitVec 6) :
    roundStep (roundFn i) i s =
      { s with work := stepOf i x s.work, stepIdx := nextStep i, stage := stageAfterStep i s.stage } := by
  simp [roundStep, hx, Reg.value, Reg.isAny, stepOf]

/-- Where the engine stands after step `i` of the rounds: at the feed-forward after step 63, else at step i + 1. -/
theorem stageAfterStep_rounds (i : BitVec 6) :
    (stageAfterStep i .rounds = .feedForward ∧ nextStep i = 0 ∧ i.toNat + 1 = 64) ∨
      (stageAfterStep i .rounds = .rounds ∧ (nextStep i).toNat = i.toNat + 1) := by
  by_cases h : i = 63
  · subst h
    exact .inl ⟨rfl, rfl, rfl⟩
  · have hlt : i.toNat + 1 < 64 := by
      have : i.toNat ≠ 63 := fun e => h (BitVec.eq_of_toNat_eq e)
      omega
    exact .inr ⟨if_neg h, by simp [nextStep, Nat.mod_eq_of_lt hlt]⟩

theorem roundStep_inv {s : State} (hi : Inv s) (hs : s.stage = .rounds) :
    Inv (roundStep (roundFn s.stepIdx) s.stepIdx s) := by
  have hb : s.busy = true := busy_of_ne_idle (by simp [hs])
  have hk := roundStep_keeps (roundFn s.stepIdx) s.stepIdx hb
  obtain ⟨x, hx, hacc, hwork⟩ := hi.inRounds hs
  obtain ⟨hjob, -⟩ := hi.runs (.inr (.inl hs))
  have hnext : stepOf s.stepIdx x s.work = workAfter s.chain x (s.stepIdx.toNat + 1) := by
    rw [workAfter_succ, BitVec.ofNat_toNat, BitVec.setWidth_eq, hwork]
  rw [roundStep_of_known hx, hs, hnext] at hk ⊢
  rcases stageAfterStep_rounds s.stepIdx with ⟨hstage, hstep, hlast⟩ | ⟨hstage, hstep⟩ <;> rw [hstage] at hk ⊢
  · exact hi.of_move hb hk (fun _ => hstep) (fun _ => ⟨hjob, _, hacc⟩) nofun nofun
      fun _ => ⟨x, hx, hacc, congrArg (workAfter s.chain x) hlast⟩
  · exact hi.of_move hb hk (fun h => absurd rfl h) (fun _ => ⟨hjob, _, hacc⟩) nofun
      (fun _ => ⟨x, hx, hacc, congrArg (workAfter s.chain x) hstep.symm⟩) nofun

/-- The end of a pass that starts another one (43_hmac.md R166). -/
theorem endPass_known {d : Quad} {s t : State} {j : Job} (h : endPass d s j = some t) (ht : t.stage = .blockStart) :
    t.stepIdx = s.stepIdx ∧ (∃ q, t.acc = knownQuad q) ∧ j ≠ .compress := by
  unfold endPass at h
  split at h
  · cases h
  · split at h <;> cases h
    cases ht
  · split at h <;> cases h
    cases ht
  · split at h
    · cases h
      exact ⟨rfl, ⟨_, rfl⟩, nofun⟩
    · cases h
      exact ⟨rfl, ⟨_, rfl⟩, nofun⟩
    · split at h <;> cases h
      cases ht

/-- The end of a block that starts another one (41_compression_core.md R129). -/
theorem endBlock_known {s t : State} (h : endBlock s = some t) (ht : t.stage = .blockStart) :
    t.stepIdx = s.stepIdx ∧ s.job.isSome = true ∧ (∃ q, t.acc = knownQuad q) ∧ s.job ≠ some .compress := by
  unfold endBlock at h
  split at h
  · cases h
    cases ht
  · rename_i j hne hj
    obtain ⟨m, -, hm⟩ := Option.bind_eq_some_iff.1 h
    have hnc : s.job ≠ some .compress := fun e => hne (Option.some.inj (hj.symm.trans e))
    split at hm
    · cases hm
      exact ⟨rfl, by simp [hj], ⟨_, rfl⟩, hnc⟩
    · obtain ⟨hstep, hacc, -⟩ := endPass_known hm ht
      exact ⟨hstep, by simp [hj], hacc, hnc⟩
  · cases h

theorem endBlock_inv {s t : State} (hi : Inv s) (hs : s.stage = .feedForward) (h : endBlock s = some t) : Inv t := by
  have hb : s.busy = true := busy_of_ne_idle (by simp [hs])
  rcases endBlock_cases h with ⟨hk, ht⟩ | hc
  · obtain ⟨hstep, hjob, hacc, hnc⟩ := endBlock_known h ht
    exact hi.of_blockStart hb hk ht (hstep.trans (hi.stepOutside (by simp [hs]))) (hk.job ▸ hjob) hacc
      (fun hj => absurd (hk.job ▸ hj) hnc)
  · exact hc.inv hi

theorem beginStepLevel_inv {s t : State} (hi : Inv s) (hs : s.stage = .accepted) (h : beginStepLevel s = some t) :
    Inv t := by
  have hb : s.busy = true := busy_of_ne_idle (by simp [hs])
  obtain ⟨hk, ht⟩ := beginStepLevel_keeps h
  obtain ⟨hstep, hjob, hacc, hblock⟩ := beginStepLevel_known h
  exact hi.of_blockStart hb hk ht (hstep.trans (hi.stepOutside (by simp [hs]))) (hk.job ▸ hjob) hacc
    (fun hj => hblock (hk.job ▸ hj))

theorem orWhole_inv {move : Option State} {s t : State} (hi : Inv s) (hm : move = some t → Inv t)
    (h : orWhole move s = .next t) : Inv t :=
  (orWhole_cases h).elim hm fun hc => hc.inv hi

theorem engineMove_inv {s t : State} (hi : Inv s) (h : engineMove s = .next t) : Inv t := by
  cases hs : s.stage with
  | idle => rw [engineMove_idle hs] at h; cases h; exact hi
  | accepted =>
    obtain ⟨u, hu, hc⟩ := wholeEffect_completes s
    obtain rfl : u = t := Host.Outcome.next.inj (hu.symm.trans ((engineMove_accepted hs).symm.trans h))
    exact hc.inv hi
  | blockStart => rw [engineMove_blockStart hs] at h; exact orWhole_inv hi (startBlock_inv hi hs) h
  | rounds => rw [engineMove_rounds hs, exec_decodeStep] at h; cases h; exact roundStep_inv hi hs
  | feedForward => rw [engineMove_feedForward hs] at h; exact orWhole_inv hi (endBlock_inv hi hs) h

theorem microMove_accepted {s : State} (h : s.stage = .accepted) : microMove s = orWhole (beginStepLevel s) s := by
  simp only [microMove, h]

theorem microMove_of_ne {s : State} (h : s.stage ≠ .accepted) : microMove s = engineMove s := by
  unfold microMove
  cases hs : s.stage with
  | accepted => exact absurd hs h
  | idle | blockStart | rounds | feedForward => rfl

theorem microMove_inv {s t : State} (hi : Inv s) (h : microMove s = .next t) : Inv t := by
  by_cases hs : s.stage = .accepted
  · rw [microMove_accepted hs] at h
    exact orWhole_inv hi (beginStepLevel_inv hi hs) h
  · rw [microMove_of_ne hs] at h
    exact engineMove_inv hi h

/-! ### The outside world's inputs -/

/-- The invariant says nothing of CTRL, the inputs, the host's variable and the draw counter. -/
theorem Inv.host {s : State} (hi : Inv s) (e : Bool) (i : List Input) (w : Word) (n : Nat) :
    Inv { s with ie := e, inputs := i, rdata := w, draws := n } :=
  ⟨hi.memory, hi.errCode, hi.busyClear, hi.idleStart, hi.stepOutside, hi.runs, hi.compressBlock, hi.inRounds,
    hi.roundsDone⟩

/-- A STATUS that keeps ERR with its code, and stays clear while BUSY, keeps the invariant. -/
theorem Inv.withStatus {s : State} (hi : Inv s) {st : Status} (he : st.err = true ↔ st.ecode ≠ .none)
    (hb : s.busy = true → st.done = false ∧ st.err = false) : Inv { s with status := st } :=
  ⟨hi.memory, he, hb, hi.idleStart, hi.stepOutside, hi.runs, hi.compressBlock, hi.inRounds, hi.roundsDone⟩

theorem Inv.withMemory {s : State} (hi : Inv s) {m : List Host.Cell} (hm : Memory.wf m = true) :
    Inv { s with mem := m } :=
  ⟨hm, hi.errCode, hi.busyClear, hi.idleStart, hi.stepOutside, hi.runs, hi.compressBlock, hi.inRounds, hi.roundsDone⟩

theorem Inv.withRaces {s : State} (hi : Inv s) (hb : s.busy = true) (r : List Host.Cell) (n : Nat) :
    Inv { s with racing := r, draws := n } :=
  ⟨hi.memory, hi.errCode, hi.busyClear, fun h => absurd h (ne_idle_of_busy hb),
    hi.stepOutside, hi.runs, hi.compressBlock, hi.inRounds, hi.roundsDone⟩

theorem storeByte_inv {s : State} (hi : Inv s) (a : Word) (b : Byte) : Inv (storeByte a b s) := by
  have hm : Memory.wf (Memory.write s.mem a.toNat b) = true := memory_wf_write hi.memory (word_inside a) b
  cases hb : s.busy with
  | false => rw [storeByte_idle hb]; exact hi.withMemory hm
  | true =>
    cases hl : lookupByte s.racing a.toNat with
    | some d => rw [storeByte_again hb hl]; exact hi.withMemory hm
    | none => rw [storeByte_first hb hl]; exact (hi.withMemory hm).withRaces hb _ _

/-- A new command starts with STATUS clear and no races (44_commands.md R175). -/
theorem accept_inv {s : State} (hi : Inv s) (v : Word) (hb : s.busy = false) : Inv (accept v s) where
  memory := hi.memory
  errCode := by simp [Status.atAcceptance]
  busyClear _ := ⟨rfl, rfl⟩
  idleStart := nofun
  stepOutside _ := hi.stepOutside (by simp [stage_of_not_busy hb])
  runs := by simp
  compressBlock := nofun
  inRounds := nofun
  roundsDone := nofun

/-- Acknowledging clears ERR and ECODE together (10_state.md R25). -/
theorem acknowledge_inv {s : State} (hi : Inv s) (v : Word) : Inv { s with status := acknowledge v s.status } := by
  refine hi.withStatus ?_ fun hb => ?_
  · cases h2 : v.getLsbD 2 with
    | true => simp [acknowledge, h2]
    | false =>
      simp only [acknowledge, h2, Bool.not_false, Bool.and_true]
      exact hi.errCode
  · obtain ⟨hdone, herr⟩ := hi.busyClear hb
    simp [acknowledge, hdone, herr]

/-- A write that is dropped while BUSY sets OVR alone (10_state.md R39). -/
theorem unlessBusy_inv {s t : State} (hi : Inv s) (ht : s.busy = false → Inv t) : Inv (unlessBusy s t) := by
  cases hb : s.busy with
  | true => rw [unlessBusy_busy hb]; exact hi.withStatus hi.errCode fun _ => hi.busyClear hb
  | false => rw [unlessBusy_idle hb]; exact ht hb

theorem hostWrite_inv {s : State} (hi : Inv s) (r : WindowReg) (v : Word) : Inv (hostWrite r v s) := by
  cases r with
  | status => exact acknowledge_inv hi v
  | ctrl => exact hi.host (v.getLsbD 0) s.inputs s.rdata s.draws
  | digest _ | reserved => exact hi
  | cmd => exact unlessBusy_inv hi (accept_inv hi v)
  | msgAddr | msgLen | keyAddr | keyLen | acc _ | xbuf _ | kbuf _ =>
    refine unlessBusy_inv hi fun hb => ?_
    have hs := stage_of_not_busy hb
    exact .of_idle hs hi.memory hi.errCode (hi.idleStart hs) (hi.stepOutside (by simp [hs]))

theorem hostRead_inv {s : State} (hi : Inv s) (r : WindowReg) : Inv (hostRead r s) := by
  rw [hostRead_eq]
  exact hi.host s.ie s.inputs _ _

theorem resetBlock_inv {s : State} (hi : Inv s) : Inv (resetBlock s) :=
  .of_idle rfl hi.memory (by simp [State.reset]) ⟨rfl, rfl, rfl⟩ rfl

/-- Settles O39: State.reset is idle, and its memory and STATUS are empty. -/
theorem resetMeetsTheInvariant : Obligations.ResetMeetsTheInvariant :=
  .of_idle rfl rfl (by simp [State.reset]) ⟨rfl, rfl, rfl⟩ rfl

/-- Settles O40: each kind of step by its own lemma, from the state with the taken input removed. -/
theorem stepKeepsTheInvariant : Obligations.StepKeepsTheInvariant := by
  intro s t hi h
  have taken : ∀ i, Inv { s with inputs := i } := fun i => hi.host s.ie i s.rdata s.draws
  rcases step_cases h with ⟨rest, -, rfl⟩ | ⟨a, b, rest, -, rfl⟩ | ⟨r, v, rest, -, rfl⟩ | ⟨r, rest, -, rfl⟩ |
    ⟨rest, -, -, rfl⟩ | ⟨i, hm, -⟩
  · exact resetBlock_inv (taken rest)
  · exact storeByte_inv (taken rest) a b
  · exact hostWrite_inv (taken rest) r v
  · exact hostRead_inv (taken rest) r
  · exact hi.host s.ie rest s.statusWord s.draws
  · exact hm.elim (engineMove_inv (taken i)) (microMove_inv (taken i))

end Sys2Proof.Machine

/-! What a step leaves unchanged, whatever the input (10_state.md R31, R39; 20_memory.md R61, R70), and the accesses
of the host that the window rules speak of. -/

namespace Sys2Proof.Machine

/-! ### What a host write keeps -/

theorem hostWrite_digest_mem (r : WindowReg) (v : Word) (s : State) :
    (hostWrite r v s).digest = s.digest ∧ (hostWrite r v s).mem = s.mem := by
  cases r with
  | status | ctrl | digest _ | reserved => exact ⟨rfl, rfl⟩
  | cmd | msgAddr | msgLen | keyAddr | keyLen | acc _ | xbuf _ | kbuf _ =>
    cases hb : s.busy with
    | true => rw [hostWrite_dropped hb rfl]; exact ⟨rfl, rfl⟩
    | false => rw [hostWrite, unlessBusy_idle hb]; exact ⟨rfl, rfl⟩

/-- While BUSY the latch keeps its word (10_state.md R39). -/
theorem hostWrite_cmd_busy {s : State} (hb : s.busy = true) (r : WindowReg) (v : Word) :
    (hostWrite r v s).cmd = s.cmd := by
  cases r with
  | status | ctrl | digest _ | reserved => rfl
  | cmd | msgAddr | msgLen | keyAddr | keyLen | acc _ | xbuf _ | kbuf _ => rw [hostWrite_dropped hb rfl]

/-! ### What a move of the engine keeps -/

theorem Completes.cmd_mem {i : Instr} {s t : State} (h : Completes i s t) : t.cmd = s.cmd ∧ t.mem = s.mem := by
  obtain ⟨e, u, hc, -, rfl⟩ := h
  exact ⟨hc.cmd, hc.mem⟩

theorem move_cmd_mem {s t : State} (h : engineMove s = .next t ∨ microMove s = .next t) :
    t.cmd = s.cmd ∧ t.mem = s.mem := by
  rcases h.elim engineMove_cases microMove_cases with ⟨-, rfl⟩ | ⟨-, hk⟩ | ⟨-, hc⟩
  · exact ⟨rfl, rfl⟩
  · exact ⟨hk.cmd, hk.mem⟩
  · exact hc.cmd_mem

/-- A completion that changes DIGEST is one of DIGEST or HMAC, without error (44_commands.md R183, R184). -/
theorem Completes.digest_changed {i : Instr} {s t : State} (h : Completes i s t) (hd : t.digest ≠ s.digest) :
    (i = .digest ∨ i = .hmac) ∧ t.busy = false ∧ t.status.done = true ∧ t.status.err = false ∧ t.acc = t.digest := by
  obtain ⟨e, u, -, hrule, rfl⟩ := h
  rcases hrule with hkept | ⟨hi, rfl, hacc⟩
  · exact absurd hkept hd
  · exact ⟨hi, rfl, rfl, rfl, hacc⟩

/-- Settles O34: the engine's move where it is idle. -/
theorem idleEngineKeepsItsState : Obligations.IdleEngineKeepsItsState := fun s hi hb => by
  rw [step_of_no_input hi, engineMove_idle (stage_of_not_busy hb)]

/-- Settles O35: of all steps only a completion and the reset input touch DIGEST. -/
theorem onlyDigestAndHmacWriteDigest : Obligations.OnlyDigestAndHmacWriteDigest := by
  intro s t h hd
  rcases step_cases h with ⟨rest, hi, -⟩ | ⟨a, b, rest, -, rfl⟩ | ⟨r, v, rest, -, rfl⟩ | ⟨r, rest, -, rfl⟩ |
    ⟨rest, -, -, rfl⟩ | ⟨i, hm, -⟩
  · exact .inr ⟨rest, hi⟩
  · rw [storeByte_eq] at hd; exact absurd rfl hd
  · exact absurd (hostWrite_digest_mem r v { s with inputs := rest }).1 hd
  · rw [hostRead_eq] at hd; exact absurd rfl hd
  · exact absurd rfl hd
  · rcases hm.elim engineMove_cases microMove_cases with ⟨-, rfl⟩ | ⟨-, hk⟩ | ⟨hb, hc⟩
    · exact absurd rfl hd
    · exact absurd hk.digest hd
    · obtain ⟨hcmd, hidle, hdone, herr, hacc⟩ := hc.digest_changed hd
      exact .inl ⟨hb, hcmd, hidle, hdone, herr, hacc⟩

/-- Settles O36: of all steps only a store of the host touches the memory. -/
theorem onlyHostStoresChangeMemory : Obligations.OnlyHostStoresChangeMemory := by
  intro s t a hwf h hne
  have kept : t.mem = s.mem → False := fun hm => hne (by rw [hm])
  rcases step_cases h with ⟨rest, -, rfl⟩ | ⟨addr, b, rest, hi, rfl⟩ | ⟨r, v, rest, -, rfl⟩ | ⟨r, rest, -, rfl⟩ |
    ⟨rest, -, -, rfl⟩ | ⟨i, hm, -⟩
  · exact (kept rfl).elim
  · have hread := memory_read_write hwf addr.toNat b a
    rw [storeByte_mem] at hne ⊢
    by_cases ha : a = addr.toNat
    · exact ⟨addr, b, rest, hi, ha.symm, by rw [hread, if_pos ha]⟩
    · exact absurd (hread.trans (if_neg ha)) hne
  · exact (kept (hostWrite_digest_mem r v _).2).elim
  · exact (kept (by rw [hostRead_eq])).elim
  · exact (kept rfl).elim
  · exact (kept (move_cmd_mem hm).2).elim

/-- Settles O38: a CMD write while BUSY is dropped, and no other input but reset and no move writes the latch. -/
theorem noCommandReplacesARunningOne : Obligations.NoCommandReplacesARunningOne := by
  intro s t h hb
  rcases step_cases h with ⟨rest, hi, -⟩ | ⟨a, b, rest, -, rfl⟩ | ⟨r, v, rest, -, rfl⟩ | ⟨r, rest, -, rfl⟩ |
    ⟨rest, -, -, rfl⟩ | ⟨i, hm, -⟩
  · exact .inr ⟨rest, hi⟩
  · exact .inl (by rw [storeByte_eq])
  · exact .inl (hostWrite_cmd_busy (s := { s with inputs := rest }) hb r v)
  · exact .inl (by rw [hostRead_eq])
  · exact .inl rfl
  · exact .inl (move_cmd_mem hm).1

/-! ### A host store and the bytes of the running command -/

/-- Where reading has no side effects, the byte used is the draw of its race, or MEM's (20_memory.md R67, R70). -/
theorem sourceByte_of_no_device {s : State} {a : Nat} (hd : ∀ r ∈ s.device, r.has a = false) :
    s.sourceByte a = (lookupByte s.racing a).getD (Memory.read s.mem a) := by
  have noDevice : s.device.any (fun r => r.has a) = false := by simpa using hd
  simp only [State.sourceByte, noDevice, Bool.false_eq_true, if_false]
  cases lookupByte s.racing a <;> rfl

theorem plainByte_iff (s : State) (a : Nat) :
    PlainByte s a ↔ lookupByte s.racing a = none ∧ ∀ r ∈ s.device, r.has a = false := by
  rw [lookupByte_eq_none_iff, PlainByte]

@[simp] theorem storeByte_device (a : Word) (b : Byte) (s : State) : (storeByte a b s).device = s.device := by
  rw [storeByte_eq]

section
variable {s : State} (hb : s.busy = true) (a : Word) (b : Byte)
include hb

/-- The races after a store while BUSY: the address has its first draw, the others are as before (log 4). -/
theorem lookupByte_storeByte (a' : Nat) :
    lookupByte (storeByte a b s).racing a' =
      if a' = a.toNat then some ((lookupByte s.racing a.toNat).getD (Config.drawByte s.draws a.toNat))
      else lookupByte s.racing a' := by
  cases hl : lookupByte s.racing a.toNat with
  | some d =>
    rw [storeByte_again hb hl]
    split
    · rename_i h; rw [h, hl]; rfl
    · rfl
  | none =>
    rw [storeByte_first hb hl, lookupByte_cons]
    simp only [eq_comm (a := a.toNat)]
    rfl

theorem storeByte_not_plain : ¬PlainByte (storeByte a b s) a.toNat := by
  rw [plainByte_iff, lookupByte_storeByte hb, if_pos rfl]
  exact fun h => nomatch h.1

theorem storeByte_plain_elsewhere {a' : Nat} (ha : a' ≠ a.toNat) : PlainByte (storeByte a b s) a' ↔ PlainByte s a' := by
  rw [plainByte_iff, plainByte_iff, lookupByte_storeByte hb, if_neg ha, storeByte_device]

/-- The first store makes the running command's byte a draw (20_memory.md R70). -/
theorem storeByte_draws_byte (hp : PlainByte s a.toNat) :
    (storeByte a b s).sourceByte a.toNat = Config.drawByte s.draws a.toNat := by
  obtain ⟨hl, hd⟩ := (plainByte_iff ..).1 hp
  rw [sourceByte_of_no_device (by rwa [storeByte_device]), lookupByte_storeByte hb, if_pos rfl, hl]
  rfl

/-- A later store keeps that draw. -/
theorem storeByte_keeps_draw (hr : ∃ c ∈ s.racing, c.1 = a.toNat) :
    (storeByte a b s).sourceByte a.toNat = s.sourceByte a.toNat := by
  obtain ⟨c, hc, hca⟩ := hr
  obtain ⟨d, hl⟩ := Option.ne_none_iff_exists'.1 fun hn =>
    (lookupByte_eq_none_iff s.racing a.toNat).1 hn c hc hca
  rw [storeByte_again hb hl]
  simp only [State.sourceByte, hl]

theorem storeByte_byte_elsewhere (hwf : Memory.wf s.mem = true) {a' : Nat} (ha : a' ≠ a.toNat)
    (hd : ∀ r ∈ s.device, r.has a' = false) : (storeByte a b s).sourceByte a' = s.sourceByte a' := by
  rw [sourceByte_of_no_device hd, sourceByte_of_no_device (by rwa [storeByte_device]), lookupByte_storeByte hb,
    if_neg ha, storeByte_mem, memory_read_write hwf, if_neg ha]

end

/-- Settles O37: the memory after a write, and the bytes of the running command after a store while idle and while
BUSY. -/
theorem hostStoreWritesOneByte : Obligations.HostStoreWritesOneByte := by
  intro s a b rest hwf hi
  refine ⟨storeByte a b { s with inputs := rest }, by simp only [step, hi], fun a' => ?_, fun hb => ?_, fun hb => ?_⟩
  · rw [storeByte_mem]; exact memory_read_write hwf a.toNat b a'
  · rw [storeByte_idle (s := { s with inputs := rest }) hb]
    refine ⟨rfl, fun hp => ?_⟩
    rw [sourceByte_of_plain (s := { s with inputs := rest, mem := _ }) hp]
    exact (memory_read_write hwf ..).trans (if_pos rfl)
  · have hb : State.busy { s with inputs := rest } = true := hb
    exact ⟨by rw [storeByte_mem]; exact storeByte_eq a b _, storeByte_not_plain hb a b,
      fun a' => storeByte_plain_elsewhere hb a b, storeByte_draws_byte hb a b, storeByte_keeps_draw hb a b,
      fun a' => storeByte_byte_elsewhere hb a b hwf⟩

end Sys2Proof.Machine

/-! The statements of INIT, KEYPREP, IPAD and OPAD, of errors, and of what the results of a command depend on
(44_commands.md, 60_exceptions.md section 1). -/

namespace Sys2Proof.Machine

/-! ### INIT, IPAD, OPAD -/

theorem reading_kbufOperand (s : State) : Reading s.kbuf s.kbufOperand :=
  reading_value s.kbuf fun j => Config.drawWord s.draws (20 + j)

theorem padWords_getElem (c : Word) (kb : Block) (j : Nat) (h : j < 16) : (padWords c kb)[j] = kb[j] ^^^ c := by
  simp [padWords]

/-- Settles O7: INIT is a completion with IV in ACC. -/
theorem initLoadsIv : Obligations.InitLoadsIv := by
  refine ⟨by decide, fun s => ?_⟩
  have hx := exec_init s
  exact ⟨_, hx, exec_command_completed rfl hx rfl, by simp only [complete_acc]; decide, rfl, rfl, rfl, ⟨rfl, rfl, rfl⟩,
    exec_command_frame rfl hx⟩

/-- A completion with the words of KBUF XOR a constant in XBUF (44_commands.md R186, R187). -/
theorem complete_padWords_xbuf (c : Word) (s : State) (j : Nat) (h : j < 16) :
    (complete .none { s with xbuf := knownBlock (padWords c s.kbufOperand) }).xbuf[j] =
      .known (s.kbufOperand[j] ^^^ c) := by
  rw [← padWords_getElem c _ j h]
  exact knownBlock_getElem _ j h

/-- Settles O12: the reading of KBUF is the operand that IPAD takes. -/
theorem ipadXorsKbufIntoXbuf : Obligations.IpadXorsKbufIntoXbuf := by
  refine ⟨by decide, fun s => ?_⟩
  have hx := exec_ipad s
  exact ⟨_, s.kbufOperand, hx, reading_kbufOperand s, complete_padWords_xbuf _ s, rfl, rfl, rfl, ⟨rfl, rfl, rfl⟩,
    exec_command_completed rfl hx rfl, exec_command_frame rfl hx⟩

/-- Settles O13: as IPAD with the other constant. -/
theorem opadXorsKbufIntoXbuf : Obligations.OpadXorsKbufIntoXbuf := by
  refine ⟨by decide, fun s => ?_⟩
  have hx := exec_opad s
  exact ⟨_, s.kbufOperand, hx, reading_kbufOperand s, complete_padWords_xbuf _ s, rfl, rfl, rfl, ⟨rfl, rfl, rfl⟩,
    exec_command_completed rfl hx rfl, exec_command_frame rfl hx⟩

/-! ### KEYPREP -/

/-- Only DIGEST and HMAC can change DIGEST (10_state.md R31). -/
theorem exec_digest_kept {i : Instr} (hr : isRound i = false) (hd : i ≠ .digest) (hh : i ≠ .hmac) {s t : State}
    (ht : exec i s = .next t) : t.digest = s.digest := by
  obtain ⟨u, hu, hc⟩ := exec_completes hr s
  obtain rfl : u = t := by simpa [hu] using ht
  by_contra hne
  exact (hc.digest_changed hne).1.elim hd hh

@[simp] theorem finishKeyprep_kbuf (d : Bool) (kb : Vector Reg 16) (s : State) : (finishKeyprep d kb s).kbuf = kb := by
  cases d <;> rfl

@[simp] theorem finishKeyprep_status (d : Bool) (kb : Vector Reg 16) (s : State) :
    (finishKeyprep d kb s).status = s.status.atCompletion .none := by
  cases d <;> rfl

/-- KEYPREP where an address of the key does not answer (60_exceptions.md R214, R217). -/
theorem exec_keyprep_not_busOk {s t : State} (he : s.keyError = .none)
    (hb : ¬BusOkOn s s.keyAddr.toNat s.keyLen.toNat) (ht : exec .keyprep s = .next t) :
    CompletedWith .busErr s t ∧ t.acc = anyQuad ∧ t.xbuf = anyBlock ∧ t.kbuf = anyBlock := by
  obtain rfl : raiseBusErr true s = t := by
    simpa [exec_keyprep_bus he (memRead_eq_none_of_not_busOkOn hb)] using ht
  exact ⟨exec_command_completed rfl ht rfl, rfl, rfl, rfl⟩

/-- KEYPREP of a key that is read whole (44_commands.md R185). -/
theorem exec_keyprep_busOk {s t : State} (he : s.keyError = .none)
    (hb : BusOkOn s s.keyAddr.toNat s.keyLen.toNat) (ht : exec .keyprep s = .next t) :
    CompletedWith .none s t ∧
      (if s.keyLen.toNat ≤ 64 then t.acc = s.acc ∧ t.xbuf = s.xbuf ∧ EngineKept s t
        else t.acc = anyQuad ∧ t.xbuf = anyBlock) ∧
      ∃ k, SourceBytes s s.keyAddr.toNat s.keyLen.toNat k ∧
        (NoSideEffects s s.keyAddr.toNat s.keyLen.toNat → t.kbuf = knownBlock (toBlock (normKey k))) := by
  obtain ⟨k, hk⟩ := exists_memRead_of_busOkOn hb
  have hlen : k.length = s.keyLen.toNat := memRead_length hk
  obtain rfl : finishKeyprep (decide (64 < k.length)) (keyRegs s.keyOnDevice k) s = t := by
    simpa [exec_keyprep_ok he hk] using ht
  have hcode : (finishKeyprep (decide (64 < k.length)) (keyRegs s.keyOnDevice k) s).status.ecode = .none := by
    rw [finishKeyprep_status]
    rfl
  refine ⟨exec_command_completed rfl ht hcode, ?_, k, memRead_sourceBytes hk, fun hn => ?_⟩
  · rw [← hlen]
    split_ifs with hshort
    · rw [decide_eq_false (by omega)]
      exact ⟨rfl, rfl, rfl, rfl, rfl⟩
    · rw [decide_eq_true (by omega)]
      exact ⟨rfl, rfl⟩
  · have plainKey : s.keyOnDevice = false := meetsDevice_of_noSideEffects hn
    rw [finishKeyprep_kbuf, plainKey, keyRegs_of_plain]

/-- Settles O11: the two checks of the key region, then its reads. -/
theorem keyprepFollowsItsRule : Obligations.KeyprepFollowsItsRule := by
  refine ⟨by decide, fun s => ?_⟩
  obtain ⟨t, ht⟩ := exec_command_next (i := .keyprep) rfl s
  refine ⟨t, ht, exec_command_frame rfl ht, exec_digest_kept (i := .keyprep) rfl nofun nofun ht, ?_⟩
  intro ka kl
  split_ifs with hlen hend hshort
  · exact check_failed_completed rfl exec_keyprep_check (regionError_of_long (by omega)) nofun ht
  · exact check_failed_completed rfl exec_keyprep_check (regionError_of_past_end (by omega) hend) nofun ht
  all_goals
    have passed : s.keyError = .none := regionError_of_inside (by omega) hend
    refine ⟨fun hb => exec_keyprep_not_busOk passed hb ht, fun hb => ?_⟩
    have h := exec_keyprep_busOk passed hb ht
  · rwa [if_pos hshort] at h
  · rwa [if_neg hshort] at h

/-! ### Errors -/

/-- Settles O16: a command completes, and a round step answers the next registers. -/
theorem everyInstructionAnswersANextState : Obligations.EveryInstructionAnswersANextState := by
  intro i s
  cases i with
  | ff j => exact ⟨_, exec_ff j s⟩
  | gg j => exact ⟨_, exec_gg j s⟩
  | hh j => exact ⟨_, exec_hh j s⟩
  | ii j => exact ⟨_, exec_ii j s⟩
  | nop | init | compress | digest | hmac | keyprep | ipad | opad | illegalOp _ | illegalRsv _ _ =>
    exact exec_command_next rfl s

/-- `s` on another platform: another memory, other addresses that answer and that have side effects. -/
def onPlatform (mem : List Host.Cell) (absent device : List Region) (s : State) : State :=
  { s with mem := mem, absent := absent, device := device }

/-- How a command ends with an error: with a check error, whatever the source memory holds, or with BUS_ERR
(60_exceptions.md R210 to R218). -/
inductive EndsWithError (i : Instr) (s : State) : State → Prop
  | check (e : ErrCode) (hbus : e ≠ .busErr)
      (same : ∀ mem absent device, exec i (onPlatform mem absent device s) =
        .next (complete e (onPlatform mem absent device s))) : EndsWithError i s (complete e s)
  | digest (hi : i = .digest) : EndsWithError i s (raiseBusErr false s)
  | key (hi : i = .hmac ∨ i = .keyprep) : EndsWithError i s (raiseBusErr true s)

/-- The checks of a region never give BUS_ERR (60_exceptions.md R218). -/
theorem regionError_ne_busErr (pre a n : Nat) : regionError pre a n ≠ .busErr := by
  unfold regionError
  split_ifs <;> nofun

theorem hmacError_ne_busErr (s : State) : s.hmacError ≠ .busErr := by
  by_cases h : s.keyError = .none
  · rw [hmacError_of_key_passed h]
    exact regionError_ne_busErr _ _ _
  · rw [hmacError_of_keyError rfl h]
    exact regionError_ne_busErr _ _ _

/-- HMAC's two reads: one of them answers BusError, or both give bytes. -/
theorem key_message_reads (s : State) :
    (s.key = none ∨ s.message = none) ∨ ∃ k m, s.key = some k ∧ s.message = some m := by
  cases hk : s.key with
  | none => exact .inl (.inl rfl)
  | some k =>
    cases hm : s.message with
    | none => exact .inl (.inr rfl)
    | some m => exact .inr ⟨k, m, rfl, rfl⟩

theorem exec_endsWithError {i : Instr} (hr : isRound i = false) {s t : State} (ht : exec i s = .next t)
    (he : t.status.ecode ≠ .none) : EndsWithError i s t := by
  cases i with
  | ff _ | gg _ | hh _ | ii _ => cases hr
  | nop | init | compress | ipad | opad => cases ht; exact absurd rfl he
  | illegalOp _ | illegalRsv _ _ => cases ht; exact .check .illegalCmd nofun fun _ _ _ => rfl
  | digest =>
    by_cases hc : s.digestError = .none
    · cases hm : s.message with
      | some m => rw [exec_digest_ok hc hm] at ht; cases ht; exact absurd rfl he
      | none => rw [exec_digest_bus hc hm] at ht; cases ht; exact .digest rfl
    · rw [exec_digest_check hc] at ht
      cases ht
      exact .check _ (regionError_ne_busErr _ _ _) fun mem absent device =>
        exec_digest_check (s := onPlatform mem absent device s) hc
  | hmac =>
    by_cases hc : s.hmacError = .none
    · rcases key_message_reads s with hn | ⟨k, m, hk, hm⟩
      · rw [exec_hmac_bus hc hn] at ht; cases ht; exact .key (.inl rfl)
      · rw [exec_hmac_ok hc hk hm] at ht; cases ht; exact absurd rfl he
    · rw [exec_hmac_check hc] at ht
      cases ht
      exact .check _ (hmacError_ne_busErr s) fun mem absent device =>
        exec_hmac_check (s := onPlatform mem absent device s) hc
  | keyprep =>
    by_cases hc : s.keyError = .none
    · cases hk : s.key with
      | some k => rw [exec_keyprep_ok hc hk] at ht; cases ht; exact absurd (by rw [finishKeyprep_status]; rfl) he
      | none => rw [exec_keyprep_bus hc hk] at ht; cases ht; exact .key (.inr rfl)
    · rw [exec_keyprep_check hc] at ht
      cases ht
      exact .check _ (regionError_ne_busErr _ _ _) fun mem absent device =>
        exec_keyprep_check (s := onPlatform mem absent device s) hc

/-- Settles O15: the three ways for a command to end with an error. -/
theorem stateAfterAnError : Obligations.StateAfterAnError := by
  intro w s t ht he
  have hr := isRound_decodeCmd w
  refine ⟨exec_command_completed hr ht rfl, exec_command_frame hr ht, ?_⟩
  cases exec_endsWithError hr ht he with
  | check e hbus same => exact ⟨rfl, fun _ => ⟨complete_dataKept e s, same⟩, fun h => absurd h hbus⟩
  | digest hi => exact ⟨rfl, fun h => absurd rfl h, fun _ => ⟨rfl, rfl, .inl ⟨hi, rfl⟩⟩⟩
  | key hi => exact ⟨rfl, fun h => absurd rfl h, fun _ => ⟨rfl, rfl, .inr ⟨hi, rfl⟩⟩⟩

/-! ### What results depend on -/

/-- States that agree on a region read the same bytes from it. -/
theorem SameRegion.memRead {s s' : State} {a n : Nat} (h : SameRegion s s' a n) : s'.memRead a n = s.memRead a n := by
  have bytes : (List.range n).map (fun i => s'.sourceByte (a + i)) = (List.range n).map fun i => s.sourceByte (a + i) :=
    List.map_congr_left fun i hi => h.byte i (List.mem_range.1 hi)
  have ok : (∀ i, i < n → s'.busOk (a + i) = true) ↔ ∀ i, i < n → s.busOk (a + i) = true :=
    forall₂_congr fun i hi => by rw [h.busOk i hi]
  apply Option.ext
  intro m
  rw [memRead_eq_some_iff, memRead_eq_some_iff, bytes, ok]

theorem SameRegion.meetsDevice {s s' : State} {a n : Nat} (h : SameRegion s s' a n) :
    s'.meetsDevice a n = s.meetsDevice a n := by
  rw [Bool.eq_iff_iff, meetsDevice_iff, meetsDevice_iff]
  exact exists_congr fun i => and_congr_right fun hi => by rw [h.device i hi]

section
variable {s s' t t' : State}

theorem SameMessage.message (h : SameMessage s s') : s'.message = s.message := by
  rw [State.message, h.addr, h.len, h.region.memRead, State.message]

theorem SameMessage.meetsDevice (h : SameMessage s s') :
    s'.meetsDevice s'.msgAddr.toNat s'.msgLen.toNat = s.meetsDevice s.msgAddr.toNat s.msgLen.toNat := by
  rw [h.addr, h.len, h.region.meetsDevice]

theorem SameMessage.digestError (h : SameMessage s s') : s'.digestError = s.digestError := by
  rw [State.digestError, h.addr, h.len, State.digestError]

theorem SameKey.key (h : SameKey s s') : s'.key = s.key := by
  rw [State.key, h.addr, h.len, h.region.memRead, State.key]

theorem SameKey.keyOnDevice (h : SameKey s s') : s'.keyOnDevice = s.keyOnDevice := by
  rw [State.keyOnDevice, h.addr, h.len, h.region.meetsDevice, State.keyOnDevice]

theorem SameKey.keyError (h : SameKey s s') : s'.keyError = s.keyError := by
  rw [State.keyError, h.addr, h.len, State.keyError]

theorem hmacError_congr (hk : SameKey s s') (hm : SameMessage s s') : s'.hmacError = s.hmacError := by
  unfold State.hmacError
  rw [hk.keyError, hm.addr, hm.len]

/-- The same check error in both states is the same code, and no error-free end. -/
theorem same_check_error {e e' : ErrCode} (hee : e' = e) (he : e ≠ .none) {p : Prop} :
    (complete e' s').status.ecode = (complete e s).status.ecode ∧ ((complete e s).status.ecode = .none → p) :=
  ⟨hee, fun h => absurd h he⟩

theorem digest_congr (hm : SameMessage s s') (ht : exec .digest s = .next t) (ht' : exec .digest s' = .next t') :
    t'.status.ecode = t.status.ecode ∧ (t.status.ecode = .none → t'.digest = t.digest ∧ t'.acc = t.acc) := by
  have he' := hm.digestError
  have hm' := hm.message
  by_cases he : s.digestError = .none
  · cases hb : s.message with
    | some m =>
      rw [exec_digest_ok he hb] at ht
      rw [exec_digest_ok (he'.trans he) (hm'.trans hb), hm.meetsDevice] at ht'
      cases ht; cases ht'
      exact ⟨rfl, fun _ => ⟨rfl, rfl⟩⟩
    | none =>
      rw [exec_digest_bus he hb] at ht
      rw [exec_digest_bus (he'.trans he) (hm'.trans hb)] at ht'
      cases ht; cases ht'
      exact ⟨rfl, nofun⟩
  · rw [exec_digest_check he] at ht
    rw [exec_digest_check (he'.symm ▸ he)] at ht'
    cases ht; cases ht'
    exact same_check_error he' he

theorem keyprep_congr (hk : SameKey s s') (ht : exec .keyprep s = .next t) (ht' : exec .keyprep s' = .next t') :
    t'.status.ecode = t.status.ecode ∧ (t.status.ecode = .none → t'.kbuf = t.kbuf) := by
  have he' := hk.keyError
  have hk' := hk.key
  by_cases he : s.keyError = .none
  · cases hb : s.key with
    | some k =>
      rw [exec_keyprep_ok he hb] at ht
      rw [exec_keyprep_ok (he'.trans he) (hk'.trans hb), hk.keyOnDevice] at ht'
      cases ht; cases ht'
      rw [finishKeyprep_status, finishKeyprep_status, finishKeyprep_kbuf, finishKeyprep_kbuf]
      exact ⟨rfl, fun _ => rfl⟩
    | none =>
      rw [exec_keyprep_bus he hb] at ht
      rw [exec_keyprep_bus (he'.trans he) (hk'.trans hb)] at ht'
      cases ht; cases ht'
      exact ⟨rfl, nofun⟩
  · rw [exec_keyprep_check he] at ht
    rw [exec_keyprep_check (he'.symm ▸ he)] at ht'
    cases ht; cases ht'
    exact same_check_error he' he

theorem hmac_congr (hk : SameKey s s') (hm : SameMessage s s') (ht : exec .hmac s = .next t)
    (ht' : exec .hmac s' = .next t') :
    t'.status.ecode = t.status.ecode ∧
      (t.status.ecode = .none → t'.digest = t.digest ∧ t'.acc = t.acc ∧ t'.kbuf = t.kbuf) := by
  have he' := hmacError_congr hk hm
  have hk' := hk.key
  have hm' := hm.message
  by_cases he : s.hmacError = .none
  · rcases key_message_reads s with hn | ⟨k, m, hb, hb'⟩
    · rw [exec_hmac_bus he hn] at ht
      rw [exec_hmac_bus (he'.trans he) (by rwa [hk', hm'])] at ht'
      cases ht; cases ht'
      exact ⟨rfl, nofun⟩
    · rw [exec_hmac_ok he hb hb'] at ht
      rw [exec_hmac_ok (he'.trans he) (hk'.trans hb) (hm'.trans hb'), hk.keyOnDevice, hm.meetsDevice] at ht'
      cases ht; cases ht'
      exact ⟨rfl, fun _ => ⟨rfl, rfl, rfl⟩⟩
  · rw [exec_hmac_check he] at ht
    rw [exec_hmac_check (he'.symm ▸ he)] at ht'
    cases ht; cases ht'
    exact same_check_error he' he

end

/-- Settles O17: each command's checks, reads and results by the operands that it takes. -/
theorem resultsDependOnOperandsAlone : Obligations.ResultsDependOnOperandsAlone :=
  ⟨fun _ _ _ _ hm => digest_congr hm, fun _ _ _ _ hk => keyprep_congr hk, fun _ _ _ _ hk hm => hmac_congr hk hm⟩

end Sys2Proof.Machine

/-! The schedule of the round steps (41_compression_core.md R116 to R118), and the four round steps on the working
registers (R122 to R125). -/

namespace Sys2Proof.Machine

/-! ### The schedule -/

theorem wordIndex_formulas : ∀ j : BitVec 4,
    (wordIndex (0#2 ++ j)).val = j.toNat ∧ (wordIndex (1#2 ++ j)).val = (1 + 5 * j.toNat) % 16 ∧
      (wordIndex (2#2 ++ j)).val = (5 + 3 * j.toNat) % 16 ∧ (wordIndex (3#2 ++ j)).val = (7 * j.toNat) % 16 := by
  decide

theorem rotation_formulas : ∀ j : BitVec 4,
    rotation (0#2 ++ j) = [7, 12, 17, 22].getD (j.toNat % 4) 0 ∧
      rotation (1#2 ++ j) = [5, 9, 14, 20].getD (j.toNat % 4) 0 ∧
      rotation (2#2 ++ j) = [4, 11, 16, 23].getD (j.toNat % 4) 0 ∧
      rotation (3#2 ++ j) = [6, 10, 15, 21].getD (j.toNat % 4) 0 := by
  decide

theorem wordIndex_surjective : ∀ (r : BitVec 2) (k : Fin 16), ∃ j : BitVec 4, wordIndex (r ++ j) = k := by decide

theorem rotation_bounds : ∀ i : BitVec 6, 4 ≤ rotation i ∧ rotation i ≤ 23 := by decide

/-- Settles O45: the four facts of the table, each evaluated over its 64 rows. -/
theorem scheduleFollowsTheFormulas : Obligations.ScheduleFollowsTheFormulas :=
  ⟨wordIndex_formulas, rotation_formulas, wordIndex_surjective, rotation_bounds⟩

/-! ### The round steps -/

/-- The step primitive of a row is a rotation by the row's amount (41_compression_core.md R120). -/
theorem combine_rotation (f a b x : Word) (i : BitVec 6) :
    combine f a b x (rotation i) (roundConst i) = b + (a + f + x + roundConst i).rotateLeft (rotation i) := by
  have := rotation_bounds i
  rw [combine, rotl32_eq_rotateLeft _ (by omega)]

/-- A round step with the index `k` of its message word and its rotation amount `n` (41_compression_core.md R122 to
R125). -/
theorem roundStep_spec (fn : Word → Word → Word → Word) {i : BitVec 6} {k n : Nat} (hk : (wordIndex i).val = k)
    (hn : rotation i = n) (s : State) (hlt : k < 16) :
    ∃ x : Word, (∀ v, s.xbuf[k] = .known v → x = v) ∧
      (roundStep fn i s).work = ⟨s.work.wd,
        s.work.wb + (s.work.wa + fn s.work.wb s.work.wc s.work.wd + x + roundConst i).rotateLeft n,
        s.work.wb, s.work.wc⟩ ∧
      (roundStep fn i s).stepIdx = i + 1 ∧ RoundFrame s (roundStep fn i s) := by
  subst hk hn
  refine ⟨s.xbuf[wordIndex i].value (Config.drawWord s.draws (4 + (wordIndex i).val)), fun v hv => ?_, ?_, rfl, ?_⟩
  · rw [show s.xbuf[wordIndex i] = .known v from hv]
    rfl
  · rw [← combine_rotation]
    rfl
  · exact ⟨⟨rfl, rfl, rfl, rfl, rfl, rfl, fun _ => rfl, rfl, rfl, rfl, rfl, rfl⟩, rfl, rfl, rfl, rfl, rfl, rfl, rfl,
      rfl, rfl, rfl⟩

/-- Only step 63 moves the engine on (41_compression_core.md R126). -/
theorem stageAfterStep_of_ne {i : BitVec 6} (h : i ≠ 63) (p : Stage) : stageAfterStep i p = p := by
  cases p with
  | rounds => exact if_neg h
  | idle | accepted | blockStart | feedForward => rfl

/-- No step of the first three rounds is step 63. -/
theorem stepIndex_ne_last : ∀ j : BitVec 4, (0#2 ++ j : BitVec 6) ≠ 63 ∧ (1#2 ++ j : BitVec 6) ≠ 63 ∧
    (2#2 ++ j : BitVec 6) ≠ 63 := by decide

/-- Step 48 + j is step 63 exactly for j = 15. -/
theorem stepIndex_last : ∀ j : BitVec 4, (3#2 ++ j : BitVec 6) = 63 ↔ j = 15 := by decide

/-- Settles O18: the row of step j in the schedule. -/
theorem ffStepsTheWorkingRegisters : Obligations.FfStepsTheWorkingRegisters := by
  intro j s
  obtain ⟨hk, -⟩ := wordIndex_formulas j
  obtain ⟨hn, -⟩ := rotation_formulas j
  obtain ⟨hlast, -⟩ := stepIndex_ne_last j
  obtain ⟨x, hx, hwork, hstep, hframe⟩ := roundStep_spec roundF hk hn s j.isLt
  exact ⟨_, x, exec_ff j s, hx, hwork, hstep, stageAfterStep_of_ne hlast s.stage, hframe⟩

/-- Settles O19: the row of step 16 + j in the schedule. -/
theorem ggStepsTheWorkingRegisters : Obligations.GgStepsTheWorkingRegisters := by
  intro j s
  obtain ⟨-, hk, -⟩ := wordIndex_formulas j
  obtain ⟨-, hn, -⟩ := rotation_formulas j
  obtain ⟨-, hlast, -⟩ := stepIndex_ne_last j
  obtain ⟨x, hx, hwork, hstep, hframe⟩ := roundStep_spec roundG hk hn s (Nat.mod_lt _ (by decide))
  exact ⟨_, x, exec_gg j s, hx, hwork, hstep, stageAfterStep_of_ne hlast s.stage, hframe⟩

/-- Settles O20: the row of step 32 + j in the schedule. -/
theorem hhStepsTheWorkingRegisters : Obligations.HhStepsTheWorkingRegisters := by
  intro j s
  obtain ⟨-, -, hk, -⟩ := wordIndex_formulas j
  obtain ⟨-, -, hn, -⟩ := rotation_formulas j
  obtain ⟨-, -, hlast⟩ := stepIndex_ne_last j
  obtain ⟨x, hx, hwork, hstep, hframe⟩ := roundStep_spec roundH hk hn s (Nat.mod_lt _ (by decide))
  exact ⟨_, x, exec_hh j s, hx, hwork, hstep, stageAfterStep_of_ne hlast s.stage, hframe⟩

/-- Settles O21: the row of step 48 + j in the schedule, of which j = 15 is the last. -/
theorem iiStepsTheWorkingRegisters : Obligations.IiStepsTheWorkingRegisters := by
  intro j s
  obtain ⟨-, -, -, hk⟩ := wordIndex_formulas j
  obtain ⟨-, -, -, hn⟩ := rotation_formulas j
  obtain ⟨x, hx, hwork, hstep, hframe⟩ := roundStep_spec roundI hk hn s (Nat.mod_lt _ (by decide))
  have hstage : stageAfterStep (3#2 ++ j) s.stage = if s.stage = .rounds ∧ j = 15 then .feedForward else s.stage := by
    by_cases hj : j = 15
    · subst hj
      cases s.stage <;> rfl
    · rw [stageAfterStep_of_ne (mt (stepIndex_last j).1 hj), if_neg fun h => hj h.2]
  exact ⟨_, x, exec_ii j s, hx, hwork, hstep, hstage, hframe⟩

end Sys2Proof.Machine

/-! The host's accesses of the window while idle, to CTRL, to STATUS and outside the window (10_state.md R22 to R31,
20_memory.md R64). -/

namespace Sys2Proof.Machine

theorem ctrlWord_of_bit0 (v : Word) : 0#31 ++ BitVec.ofBool (v.getLsbD 0) = v &&& 1 := by
  apply BitVec.eq_of_getLsbD_eq
  intro n hn
  rw [BitVec.getLsbD_append, BitVec.getLsbD_and]
  by_cases h : n = 0
  · subst h; simp
  · rw [if_neg (by omega)]
    simp [h, BitVec.getLsbD_one]

/-- Settles O26: CTRL's one bit, and the registers that a write does not reach. -/
theorem ctrlTakesBitZeroAndReadOnlyWritesAreIgnored : Obligations.CtrlTakesBitZeroAndReadOnlyWritesAreIgnored := by
  refine ⟨fun s v rest hw => ⟨_, step_write hw, rfl, ctrlWord_of_bit0 v⟩, fun s r v rest hr hw => ?_⟩
  rw [step_write hw]
  rcases hr with rfl | ⟨j, rfl⟩ <;> rfl

theorem acknowledge_bits (v : Word) (st : Status) :
    (acknowledge v st).done = (if v.getLsbD 1 then false else st.done) ∧
      (acknowledge v st).err = (if v.getLsbD 2 then false else st.err) ∧
      (acknowledge v st).ecode = (if v.getLsbD 2 then .none else st.ecode) ∧
      (acknowledge v st).ovr = (if v.getLsbD 3 then false else st.ovr) := by
  have clear : ∀ b c : Bool, (b && !c) = if c then false else b := by decide
  exact ⟨clear .., clear .., rfl, clear ..⟩

/-- Writing 1 to all of DONE, ERR and OVR leaves STATUS all 0 (30_encoding.md R91 `ack`). -/
theorem acknowledge_ack (st : Status) : acknowledge 0x0000000E st = ⟨false, false, false, .none⟩ := by
  simp [acknowledge]

/-- Settles O27: the bits of an acknowledge. -/
theorem statusIsWriteOneToClear : Obligations.StatusIsWriteOneToClear := by
  intro s v rest hw
  obtain ⟨hdone, herr, hcode, hovr⟩ := acknowledge_bits v s.status
  refine ⟨_, step_write hw, rfl, hdone, herr, hcode, hovr, ?_⟩
  rintro rfl hb
  show statusWord s.busy (acknowledge 0x0000000E s.status) = 0
  rw [hb, acknowledge_ack]
  rfl

theorem selectReg_refused {base width addr : Nat}
    (h : width ≠ 4 ∨ addr < base ∨ base + 256 ≤ addr ∨ (addr - base) % 4 ≠ 0) : selectReg base width addr = none := by
  unfold selectReg windowSize
  exact if_neg (by omega)

/-- Settles O29: such an access selects no register. -/
theorem otherAccessesAreRefused : Obligations.OtherAccessesAreRefused := by
  intro s width addr v rest h hi
  have hnone := selectReg_refused h
  rcases hi with hi | hi <;> simp only [step, hi, hostAccess, hnone]

section
variable {n : Nat} {x : Vector Reg n} {s : State}

/-- A word written to an array of registers reads back while idle. -/
theorem read_set_same (hb : s.busy = false) (v : Word) (j : Fin n) :
    (deliverReg (x.set j (.known v))[j] s).rdata = v := by
  rw [show (x.set j (.known v))[j] = .known v from Vector.getElem_set_self j.isLt]
  exact deliverReg_known_idle hb

/-- The other words of the array read as before. -/
theorem read_set_ne (s : State) (v : Word) {j j' : Fin n} (h : j' ≠ j) :
    (deliverReg (x.set j (.known v))[j'] s).rdata = (deliverReg x[j'] s).rdata := by
  have hne : j.val ≠ j'.val := fun e => h (Fin.ext e.symm)
  rw [show (x.set j (.known v))[j'] = x[j'] from Vector.getElem_set_ne j.isLt j'.isLt hne]

end

/-- A data register written while idle reads back, and every other register reads as before. -/
theorem hostWrite_idle_data {s : State} (hb : s.busy = false) {r : WindowReg} (hg : r.guarded = true) (hr : r ≠ .cmd)
    (v : Word) :
    (hostRead r (hostWrite r v s)).rdata = v ∧ (hostWrite r v s).status = s.status ∧
      (hostWrite r v s).stage = s.stage ∧
      ∀ r', r' ≠ r → (hostRead r' (hostWrite r v s)).rdata = (hostRead r' s).rdata := by
  cases r
  case status | ctrl | digest | reserved => cases hg
  case cmd => exact absurd rfl hr
  all_goals rw [hostWrite, unlessBusy_idle hb]
  case msgAddr | msgLen | keyAddr | keyLen =>
    refine ⟨rfl, rfl, rfl, fun r' hne => ?_⟩
    cases r' <;> first | exact absurd rfl hne | rfl
  case acc j | xbuf j | kbuf j =>
    refine ⟨read_set_same (s := s) hb v j, rfl, rfl, fun r' hne => ?_⟩
    cases r' <;> first | rfl | exact read_set_ne s v fun h => hne (h ▸ rfl)

/-- Settles O25: the write's effect while idle, and that STATUS and PHASE are no data register. -/
theorem idleWriteIsReadBack : Obligations.IdleWriteIsReadBack := by
  intro s r v rest hb hg hr hw
  obtain ⟨hsame, hstatus, hstage, hother⟩ := hostWrite_idle_data (s := { s with inputs := rest }) hb hg hr v
  refine ⟨_, step_write hw, hsame, hstatus, hstage, fun r' hne => (hother r' hne).trans ?_⟩
  cases r' <;> rfl

end Sys2Proof.Machine

/-! The codec's round trips and its places (40_word_codec.md R100 to R106). -/

namespace Sys2Proof.Machine

/-! ### Words by their bytes -/

/-- A word is determined by its four bytes (40_word_codec.md R100). -/
theorem wordAt_congr {s s' : List Byte} {q q' : Nat} (h : ∀ i, i < 4 → byteAt s (q + i) = byteAt s' (q' + i)) :
    wordAt s q = wordAt s' q' := by
  apply BitVec.eq_of_getLsbD_eq
  intro n hn
  rw [wordAt_getLsbD, wordAt_getLsbD, h (n / 8) (by omega)]

/-- Byte p is byte p mod 4 of the word at the multiple of 4 below p. -/
theorem wordAt_extract_byte (s : List Byte) (p : Nat) :
    (wordAt s (4 * (p / 4))).extractLsb' (8 * (p % 4)) 8 = byteAt s p := by
  apply BitVec.eq_of_getLsbD_eq
  intro n hn
  have hbit : 8 * (p % 4) + n < 32 := by omega
  rw [BitVec.getLsbD_extractLsb', wordAt_getLsbD, decide_eq_true hn, decide_eq_true hbit, Bool.true_and, Bool.true_and,
    show 4 * (p / 4) + (8 * (p % 4) + n) / 8 = p by omega, show (8 * (p % 4) + n) % 8 = n by omega]

theorem byteAt_bytesOfWords {w : List Word} {j i : Nat} (hj : j < w.length) (hi : i < 4) :
    byteAt (bytesOfWords w) (4 * j + i) = w[j].extractLsb' (8 * i) 8 := by
  have hword : (4 * j + i) / 4 = j := by omega
  have hbyte : (4 * j + i) % 4 = i := by omega
  rw [byteAt, List.getD_eq_getElem?_getD, bytesOfWords_getElem?]
  simp [hword, hbyte, hj]

/-- The word at byte 4 j of the bytes of a word sequence is its word j. -/
theorem wordAt_bytesOfWords {w : List Word} {j : Nat} (hj : j < w.length) : wordAt (bytesOfWords w) (4 * j) = w[j] := by
  apply BitVec.eq_of_getLsbD_eq
  intro n hn
  rw [wordAt_getLsbD, byteAt_bytesOfWords hj (by omega), BitVec.getLsbD_extractLsb', Nat.div_add_mod]
  simp [hn, Nat.mod_lt]

theorem bytesToWords_getElem (s : List Byte) (j : Nat) (h : j < (bytesToWords s).length) :
    (bytesToWords s)[j] = wordAt s (4 * j) := by
  simp [bytesToWords]

/-- The bytes of the coded words are the string's, with zero bytes to a whole word (40_word_codec.md R100, R102). -/
theorem bytesOfWords_bytesToWords (s : List Byte) (p : Nat) :
    (bytesOfWords (bytesToWords s))[p]? = if p < 4 * ((s.length + 3) / 4) then some (byteAt s p) else none := by
  have hlen := bytesToWords_length s
  rw [bytesOfWords_getElem?]
  by_cases h : p / 4 < (bytesToWords s).length
  · rw [dif_pos h, if_pos (by omega), bytesToWords_getElem, wordAt_extract_byte]
  · rw [dif_neg h, if_neg (by omega)]

theorem bytesToWords_bytesOfWords (w : List Word) : bytesToWords (bytesOfWords w) = w := by
  have hlen : (bytesToWords (bytesOfWords w)).length = w.length := by
    rw [bytesToWords_length, bytesOfWords_length]
    omega
  refine List.ext_getElem hlen fun j _ hj => ?_
  rw [bytesToWords_getElem, wordAt_bytesOfWords hj]

/-- Zero bytes at the end change no byte: past the end a byte reads 0x00 (40_word_codec.md R100). -/
theorem byteAt_append_zeros (s : List Byte) (k q : Nat) : byteAt (s ++ zeros k) q = byteAt s q := by
  simp only [byteAt, List.getD_eq_getElem?_getD]
  by_cases h : q < s.length
  · rw [List.getElem?_append_left h]
  · rw [List.getElem?_append_right (by omega), List.getElem?_eq_none (show s.length ≤ q by omega), zeros,
      List.getElem?_replicate]
    split <;> rfl

/-- Settles O47: bytes after words, words after bytes, and the zero fill. -/
theorem codecRoundTrips : Obligations.CodecRoundTrips := by
  refine ⟨fun s => ?_, fun w => ?_, fun s hs => ?_⟩
  · have whole : 8 * s.length % 8 = 0 ∧ 8 * s.length ≤ 32 * (bytesToWords s).length := by
      rw [bytesToWords_length]
      omega
    rw [wordsToBytes, if_pos whole, Nat.mul_div_cancel_left _ (by decide)]
    refine congrArg some (List.ext_getElem? fun p => ?_)
    rw [List.getElem?_take, bytesOfWords_bytesToWords]
    by_cases hp : p < s.length
    · rw [if_pos hp, if_pos (by omega), byteAt_lt hp, List.getElem?_eq_getElem hp]
    · rw [if_neg hp, List.getElem?_eq_none (by omega)]
  · have whole : 32 * w.length % 8 = 0 ∧ 32 * w.length ≤ 32 * w.length := by omega
    rw [wordsToBytes, if_pos whole, List.take_of_length_le (by rw [bytesOfWords_length]; omega), Option.map_some,
      bytesToWords_bytesOfWords]
  · have hlen : (bytesToWords s).length = (bytesToWords (s ++ zeros (4 - s.length % 4))).length := by
      simp only [bytesToWords_length, List.length_append, zeros, List.length_replicate]
      omega
    refine List.ext_getElem hlen fun j _ _ => ?_
    rw [bytesToWords_getElem, bytesToWords_getElem]
    exact wordAt_congr fun i _ => (byteAt_append_zeros s _ _).symm

/-- Settles O48: the bits of word p div 4 are those of the bytes from 4 (p div 4) on. -/
theorem codecPlacesEveryBit : Obligations.CodecPlacesEveryBit := by
  intro s p b hp hb
  refine ⟨by rw [bytesToWords_length]; omega, ?_⟩
  have hbit : 8 * (p % 4) + b < 32 := by omega
  rw [bytesToWords_getElem, wordAt_getLsbD, decide_eq_true hbit, Bool.true_and,
    show 4 * (p / 4) + (8 * (p % 4) + b) / 8 = p by omega, show (8 * (p % 4) + b) % 8 = b by omega, byteAt_lt hp]

end Sys2Proof.Machine

/-! The padded message byte by byte and word by word (42_padder_digest.md R140 to R145). -/

namespace Sys2Proof.Machine

/-- The length field starts 8 bytes before the end of the last block (42_padder_digest.md R141, R143). -/
theorem pad_length_field (n : Nat) : n + 1 + padZeros n + 8 = 64 * blockCount n := by
  unfold padZeros blockCount
  omega

/-- Before the length field a padded message is the message with its marker OR-ed in, and zeros. -/
theorem byteAt_pad_before {m : List Byte} {p : Nat} (hp : p + 8 < 64 * blockCount m.length) :
    byteAt (pad m) p = byteAt m p ||| if p = m.length then 0x80 else 0 := by
  have hlen := pad_length_field m.length
  rw [byteAt, List.getD_eq_getElem?_getD, pad_getElem?]
  by_cases h1 : p < m.length
  · rw [if_pos h1, if_neg (by omega), byteAt_lt h1, List.getElem?_eq_getElem h1]
    simp
  · rw [if_neg h1, byteAt_ge (by omega), if_pos (show p < m.length + 1 + padZeros m.length by omega)]
    by_cases h2 : p = m.length
    · rw [if_pos h2, if_pos h2]; rfl
    · rw [if_neg h2, if_neg h2]; rfl

/-- The bytes of the length field (42_padder_digest.md R141). -/
theorem byteAt_pad_length {m : List Byte} {k : Nat} (hk : k < 8) :
    byteAt (pad m) (64 * blockCount m.length - 8 + k) = BitVec.ofNat 8 (8 * m.length / 2 ^ (8 * k)) := by
  have hlen := pad_length_field m.length
  rw [byteAt, List.getD_eq_getElem?_getD, pad_getElem?, if_neg (by omega), if_neg (by omega), if_neg (by omega),
    show 64 * blockCount m.length - 8 + k - (m.length + 1 + padZeros m.length) = k by omega]
  simp [le64, hk]

/-- Four bytes of a number, the least significant first, are its word. -/
theorem wordAt_of_number {s : List Byte} {q l : Nat}
    (h : ∀ i, i < 4 → byteAt s (q + i) = BitVec.ofNat 8 (l / 2 ^ (8 * i))) : wordAt s q = BitVec.ofNat 32 l := by
  apply BitVec.eq_of_getLsbD_eq
  intro n hn
  rw [wordAt_getLsbD, h (n / 8) (by omega), BitVec.getLsbD_ofNat, BitVec.getLsbD_ofNat, Nat.testBit_div_two_pow]
  simp [hn, Nat.mod_lt, Nat.mod_add_div]

section
variable (m : List Byte)

/-- Word 14 of the last block is the bit length (42_padder_digest.md R141). -/
theorem wordAt_pad_14 : wordAt (pad m) (64 * blockCount m.length - 8) = BitVec.ofNat 32 (8 * m.length) :=
  wordAt_of_number fun _ hi => byteAt_pad_length (by omega)

/-- Word 15 of the last block is zero below 2^29 bytes (42_padder_digest.md R140). -/
theorem wordAt_pad_15 (hm : m.length < 2 ^ 29) : wordAt (pad m) (64 * blockCount m.length - 4) = 0 := by
  refine wordAt_of_number (l := 0) fun i hi => ?_
  have hlen := pad_length_field m.length
  have hzero : 8 * m.length / 2 ^ (8 * (4 + i)) = 0 := by
    rw [show 8 * (4 + i) = 32 + 8 * i by omega, Nat.pow_add, ← Nat.div_div_eq_div_mul,
      Nat.div_eq_of_lt (show 8 * m.length < 2 ^ 32 by omega), Nat.zero_div]
  rw [show 64 * blockCount m.length - 4 + i = 64 * blockCount m.length - 8 + (4 + i) by omega,
    byteAt_pad_length (by omega), hzero, Nat.zero_div]

end

/-- The words of a byte string, 0 past its end. -/
theorem bytesToWords_getD (s : List Byte) (i : Nat) : (bytesToWords s).getD i 0 = wordAt s (4 * i) := by
  by_cases h : i < (bytesToWords s).length
  · rw [List.getD_eq_getElem _ _ h, bytesToWords_getElem]
  · rw [List.getD_eq_default _ _ (by omega)]
    rw [bytesToWords_length] at h
    refine (wordAt_of_number (l := 0) fun k _ => ?_).symm
    rw [byteAt_ge (by omega), Nat.zero_div]
    rfl

/-- The marker's place in a word: bit 8 L mod 32 and the next seven of word 8 L div 32 (42_padder_digest.md R144). -/
theorem marker_getLsbD (l i n : Nat) (hn : n < 32) :
    (if i = 8 * l / 32 then (0x80 : Word) <<< (8 * l % 32) else 0).getLsbD n =
      (if 4 * i + n / 8 = l then (0x80 : Byte) else 0).getLsbD (n % 8) := by
  have bit7 : ∀ k, (0x80 : Word).getLsbD k = decide (k = 7) := by
    intro k
    by_cases hk : k < 32
    · revert k; decide
    · rw [BitVec.getLsbD_of_ge _ _ (by omega), decide_eq_false (by omega)]
  have bit7' : ∀ k, k < 8 → (0x80 : Byte).getLsbD k = decide (k = 7) := by decide
  have shifted : ∀ k, ((0x80 : Word) <<< k).getLsbD n = decide (n = k + 7) := by
    intro k
    rw [BitVec.getLsbD_shiftLeft, bit7, Bool.eq_iff_iff]
    simp only [Bool.and_eq_true, Bool.not_eq_true', decide_eq_true_eq, decide_eq_false_iff_not]
    omega
  rw [apply_ite (BitVec.getLsbD · n), apply_ite (BitVec.getLsbD · (n % 8)), shifted, bit7' _ (Nat.mod_lt _ (by decide)),
    Bool.eq_iff_iff]
  simp only [BitVec.ofNat_eq_ofNat, BitVec.getLsbD_zero, Bool.ite_eq_true_distrib, decide_eq_true_eq,
    Bool.false_eq_true, if_false_right]
  omega

/-- Every word of a padded message (42_padder_digest.md R144). -/
theorem wordAt_pad {m : List Byte} (hm : m.length < 2 ^ 29) {i : Nat} (hi : i < 16 * blockCount m.length) :
    wordAt (pad m) (4 * i) =
      if i = 16 * (blockCount m.length - 1) + 14 then BitVec.ofNat 32 (8 * m.length)
      else if i = 16 * (blockCount m.length - 1) + 15 then 0
      else wordAt m (4 * i) ||| if i = 8 * m.length / 32 then (0x80 : Word) <<< (8 * m.length % 32) else 0 := by
  have hlen := pad_length_field m.length
  by_cases h14 : i = 16 * (blockCount m.length - 1) + 14
  · rw [if_pos h14, ← wordAt_pad_14 m]
    exact congrArg _ (by omega)
  by_cases h15 : i = 16 * (blockCount m.length - 1) + 15
  · rw [if_neg h14, if_pos h15, ← wordAt_pad_15 m hm]
    exact congrArg _ (by omega)
  rw [if_neg h14, if_neg h15]
  apply BitVec.eq_of_getLsbD_eq
  intro n hn
  rw [BitVec.getLsbD_or, marker_getLsbD _ _ _ hn, wordAt_getLsbD, wordAt_getLsbD, byteAt_pad_before (by omega),
    BitVec.getLsbD_or, decide_eq_true hn, Bool.true_and, Bool.true_and]

/-- Settles O49: the length, the bytes before the length field, and its two words. -/
theorem padLayout : Obligations.PadLayout := by
  intro m hm
  have hfield := pad_length_field m.length
  refine ⟨pad_length m, ?_, ?_, fun i hi hi' => ?_, by omega, Nat.mod_lt _ (by decide), ?_, ?_⟩
  · simp [pad]
  · rw [pad_getElem?, if_neg (by omega), if_pos rfl]
  · rw [pad_getElem?, if_neg (by omega), if_neg (by omega), if_pos (by omega)]
  · rw [blockAt_getElem _ _ _ (by decide), ← wordAt_pad_14]
    exact congrArg _ (by omega)
  · rw [blockAt_getElem _ _ _ (by decide), ← wordAt_pad_15 m hm]
    exact congrArg _ (by omega)

/-- Settles O50: equal padded strings have equally many blocks, so equal length words; the message is what stands
before. -/
theorem padIsInjective : Obligations.PadIsInjective := by
  intro m m' hm hm' h
  have hblocks : 64 * blockCount m.length = 64 * blockCount m'.length := by rw [← pad_length, ← pad_length, h]
  have hword : BitVec.ofNat 32 (8 * m.length) = BitVec.ofNat 32 (8 * m'.length) := by
    rw [← wordAt_pad_14, ← wordAt_pad_14, h, hblocks]
  have hlen : m.length = m'.length := by
    have := congrArg BitVec.toNat hword
    rw [BitVec.toNat_ofNat, BitVec.toNat_ofNat] at this
    omega
  calc m = (pad m).take m.length := by simp [pad]
    _ = (pad m').take m'.length := by rw [h, hlen]
    _ = m' := by simp [pad]

/-- Settles O51: word by word. -/
theorem wordLevelPadderIsTheBytePadder : Obligations.WordLevelPadderIsTheBytePadder := by
  intro m hm
  have hlen : (bytesToWords (pad m)).length = (wordPad m).length := by
    rw [bytesToWords_length, pad_length, wordPad, List.length_map, List.length_range]
    omega
  refine List.ext_getElem hlen fun i hi hi' => ?_
  have hin : i < 16 * blockCount m.length := by
    rw [bytesToWords_length, pad_length] at hi
    omega
  rw [bytesToWords_getElem, wordAt_pad hm hin, ← bytesToWords_getD]
  simp only [wordPad, List.getElem_map, List.getElem_range]

end Sys2Proof.Machine

/-! The named form of the round steps (41_compression_core.md section 4), and the digest engine and HMAC over strings
that start with 64 given bytes (42_padder_digest.md section 2, 43_hmac.md). -/

namespace Sys2Proof.Machine

/-- Settles O46: each step writes the named register whose turn it is, and the names turn by one. -/
theorem registerFormIsTheNamedForm : Obligations.RegisterFormIsTheNamedForm := by
  intro q x n
  induction n with
  | zero => rfl
  | succ n ih =>
    have turn : n % 4 = 0 ∧ (n + 1) % 4 = 1 ∨ n % 4 = 1 ∧ (n + 1) % 4 = 2 ∨ n % 4 = 2 ∧ (n + 1) % 4 = 3 ∨
        n % 4 = 3 ∧ (n + 1) % 4 = 0 := by omega
    rw [workAfter_succ, ih]
    rcases turn with ⟨h, h'⟩ | ⟨h, h'⟩ | ⟨h, h'⟩ | ⟨h, h'⟩ <;> simp only [namedForm, h, h'] <;> rfl

/-! ### A string that starts with a whole block -/

theorem byteAt_append_left {p q : List Byte} {k : Nat} (h : k < p.length) : byteAt (p ++ q) k = byteAt p k := by
  simp [byteAt, List.getElem?_append_left h]

theorem byteAt_append_right (p q : List Byte) (k : Nat) : byteAt (p ++ q) (p.length + k) = byteAt q k := by
  simp [byteAt, List.getElem?_append_right]

theorem wordAt_append_right (p q : List Byte) (k : Nat) : wordAt (p ++ q) (p.length + k) = wordAt q k :=
  wordAt_congr fun i _ => by rw [Nat.add_assoc, byteAt_append_right]

/-- The first block of a string that starts with 64 bytes is their block. -/
theorem blockAt_append_zero {p : List Byte} (hp : p.length = 64) (q : List Byte) : blockAt (p ++ q) 0 = toBlock p := by
  apply Vector.ext
  intro j hj
  rw [blockAt_getElem _ _ _ hj, toBlock_getElem _ _ hj, Nat.mul_zero, Nat.zero_add]
  exact wordAt_congr fun i _ => byteAt_append_left (by omega)

theorem pad_append (p q : List Byte) : ∃ r, pad (p ++ q) = p ++ r := ⟨_, by simp only [pad, List.append_assoc]; rfl⟩

theorem blockAt_pad_append_zero {p : List Byte} (hp : p.length = 64) (q : List Byte) :
    blockAt (pad (p ++ q)) 0 = toBlock p := by
  obtain ⟨r, hr⟩ := pad_append p q
  rw [hr, blockAt_append_zero hp]

/-- The chaining value after n + 1 blocks, from the first block's on (41_compression_core.md R129). -/
theorem chainAfter_eq_foldl (p : List Byte) (n : Nat) :
    chainAfter p (n + 1) =
      (List.range n).foldl (fun acc b => compress acc (blockAt p (b + 1))) (compress iv (blockAt p 0)) := by
  induction n with
  | zero => rfl
  | succ n ih => rw [chainAfter_succ, ih, List.range_succ, List.foldl_append, List.foldl_cons, List.foldl_nil]

theorem digestWords_eq (m : List Byte) : digestWords m = chainAfter (pad m) (blockCount m.length) := by
  rw [digestWords, pad_length, Nat.mul_div_cancel_left _ (by decide)]

/-- Settles O53: the first block is that of the first 64 bytes, and the digest is the chain over the others. -/
theorem prefixBlockThenStream : Obligations.PrefixBlockThenStream := by
  intro p q hp
  rw [digestWords_eq, List.length_append, hp, ← blockAt_pad_append_zero hp q, ← chainAfter_eq_foldl]
  rfl

/-! ### The pad blocks -/

/-- A word of bytes that are all XORed with `c` is the word XOR `c` in each of its four bytes. -/
theorem wordAt_map_xor {c : Byte} {w : Word} (hw : ∀ n, n < 32 → w.getLsbD n = c.getLsbD (n % 8)) {s : List Byte}
    {q : Nat} (hq : q + 4 ≤ s.length) : wordAt (s.map (· ^^^ c)) q = wordAt s q ^^^ w := by
  apply BitVec.eq_of_getLsbD_eq
  intro n hn
  have hlt : q + n / 8 < s.length := by omega
  have hbyte : byteAt (s.map (· ^^^ c)) (q + n / 8) = byteAt s (q + n / 8) ^^^ c := by
    rw [byteAt_lt hlt, byteAt_lt (by rwa [List.length_map]), List.getElem_map]
  rw [BitVec.getLsbD_xor, wordAt_getLsbD, wordAt_getLsbD, hbyte, BitVec.getLsbD_xor, hw n hn, decide_eq_true hn,
    Bool.true_and, Bool.true_and]

theorem toBlock_map_xor {c : Byte} {w : Word} (hw : ∀ n, n < 32 → w.getLsbD n = c.getLsbD (n % 8)) {k0 : List Byte}
    (h : k0.length = 64) : toBlock (k0.map (· ^^^ c)) = padWords w (toBlock k0) := by
  apply Vector.ext
  intro j hj
  rw [padWords_getElem _ _ _ hj, toBlock_getElem _ _ hj, toBlock_getElem _ _ hj, wordAt_map_xor hw (by omega)]

/-- Settles O54: both constants have the pad byte in each of their four bytes. -/
theorem padBlocksInWordForm : Obligations.PadBlocksInWordForm := fun _ h =>
  ⟨toBlock_map_xor (by decide) h, toBlock_map_xor (by decide) h⟩

@[simp] theorem ipadBlock_length (k0 : List Byte) : (ipadBlock k0).length = k0.length := List.length_map _

@[simp] theorem opadBlock_length (k0 : List Byte) : (opadBlock k0).length = k0.length := List.length_map _

/-! ### The outer pass -/

/-- The words of a digest's bytes, 0 past its end. -/
theorem wordAt_quadBytes (d : Quad) (j : Nat) : wordAt (quadBytes d) (4 * j) = d.toList.getD j 0 := by
  rw [← bytesToWords_getD, quadBytes, bytesToWords_bytesOfWords]

/-- The second block of a padded message of 64 bytes and a digest (43_hmac.md R169). -/
theorem blockAt_pad_digest {p : List Byte} (hp : p.length = 64) (d : Quad) (j : Nat) (hj : j < 16) :
    (blockAt (pad (p ++ quadBytes d)) 1)[j] =
      if j = 14 then 0x280 else if j = 15 then 0
      else d.toList.getD j 0 ||| if j = 4 then 0x80 else 0 := by
  have hlen : (p ++ quadBytes d).length = 80 := by rw [List.length_append, hp, quadBytes_length]
  have hword : wordAt (p ++ quadBytes d) (64 + 4 * j) = d.toList.getD j 0 := by
    rw [← hp, wordAt_append_right, wordAt_quadBytes]
  have hin : 16 + j < 16 * blockCount (p ++ quadBytes d).length := by rw [hlen, blockCount]; omega
  rw [blockAt_getElem _ _ _ hj, show 64 * 1 + 4 * j = 4 * (16 + j) by omega, wordAt_pad (by rw [hlen]; decide) hin,
    show 4 * (16 + j) = 64 + 4 * j by omega, hword, hlen]
  have h14 : 16 + j = 16 * (blockCount 80 - 1) + 14 ↔ j = 14 := by rw [blockCount]; omega
  have h15 : 16 + j = 16 * (blockCount 80 - 1) + 15 ↔ j = 15 := by rw [blockCount]; omega
  have h4 : 16 + j = 8 * 80 / 32 ↔ j = 4 := by omega
  simp only [h14, h15, h4]
  rfl

/-- Settles O55: the two blocks of an 80-byte message, the second word by word. -/
theorem outerPassHasTwoBlocks : Obligations.OuterPassHasTwoBlocks := by
  intro k0 d h
  have hopad : (opadBlock k0).length = 64 := by rw [opadBlock_length, h]
  refine ⟨?_, blockAt_pad_append_zero hopad _, ?_⟩
  · rw [pad_length, List.length_append, hopad, quadBytes_length]
    rfl
  · apply Vector.ext
    intro j hj
    rw [blockAt_pad_digest hopad d j hj]
    interval_cases j <;> simp

/-! ### Long keys -/

/-- A long key is replaced by its digest, which is short (43_hmac.md R161, R170). -/
theorem normKey_digestBytes {k : List Byte} (h : 64 < k.length) : normKey (digestBytes k) = normKey k := by
  rw [normKey, normKey, if_pos h, if_neg (by rw [digestBytes, quadBytes_length]; decide)]

/-- Settles O56: HMAC uses the key through NormKey alone. -/
theorem longKeyEqualsItsDigest : Obligations.LongKeyEqualsItsDigest := by
  intro k m h
  refine ⟨quadBytes_length _, ?_⟩
  rw [hmacBytes, hmacBytes, hmacWords, hmacWords, normKey_digestBytes h]

end Sys2Proof.Machine

/-! Every command completes (70_reset_and_hazards.md R252): a measure that every move of the engine but the completing
one lowers. -/

namespace Sys2Proof.Machine

/-! ### Runs -/

theorem run_add {s t : State} {a : Nat} (h : Host.Core.run core a s = .next t) (b : Nat) :
    Host.Core.run core (a + b) s = Host.Core.run core b t := by
  induction a generalizing s with
  | zero => cases h; rw [Nat.zero_add]
  | succ a ih =>
    cases hs : step s with
    | next u =>
      rw [run_next hs] at h
      rw [Nat.add_right_comm, run_next hs, ih h]
    | fault r => cases r
    | refused r => simp [Host.Core.run, show core.step s = .refused r from hs] at h

theorem run_one {s t : State} (h : step s = .next t) : Host.Core.run core 1 s = .next t := run_next h 0

/-! ### The moves that are left -/

/-- A bound on the blocks of a pass: a pass reads at most one region and 64 bytes (43_hmac.md R166). -/
def passBlocks : Nat := 2 ^ 32

theorem memRead_message_length {s : State} {m : List Byte} (h : s.message = some m) : m.length < 2 ^ 32 :=
  memRead_length h ▸ s.msgLen.isLt

theorem memRead_key_length {s : State} {k : List Byte} (h : s.key = some k) : k.length < 2 ^ 32 :=
  memRead_length h ▸ s.keyLen.isLt

@[simp] theorem blockBytes_length (b : Block) : (blockBytes b).length = 64 := by simp [blockBytes]

theorem passStream_blocks {s : State} {j : Job} {m : List Byte} (h : passStream s j = some m) :
    blockCount m.length ≤ passBlocks := by
  have hlen : m.length < 2 ^ 32 + 64 := by
    unfold passStream at h
    split at h
    · cases h
    · have := memRead_message_length h; omega
    · have := memRead_key_length h; omega
    · split at h
      · have := memRead_key_length h; omega
      · obtain ⟨m', hm', rfl⟩ := Option.map_eq_some_iff.1 h
        have := memRead_message_length hm'
        rw [List.length_append, ipadBlock_length, blockBytes_length]
        omega
      · obtain rfl := Option.some.inj h
        rw [List.length_append, opadBlock_length, blockBytes_length, quadBytes_length]
        omega
  unfold blockCount passBlocks
  omega

/-- How many passes may follow (43_hmac.md R166). -/
def Pass.left : Pass → Nat
  | .key => 2
  | .inner => 1
  | .outer => 0

/-- How many moves of its block are left to an engine in a step-level run. -/
def blockMovesLeft (s : State) : Nat :=
  match s.stage with
  | .idle | .accepted => 0
  | .feedForward => 1
  | .rounds => 65 - s.stepIdx.toNat
  | .blockStart => 66

/-- A bound on the moves that are left to an engine in a step-level run. -/
def movesLeft (s : State) : Nat :=
  66 * ((passBlocks + 1) * s.pass.left + (passBlocks - s.block)) + blockMovesLeft s

theorem startBlock_lowers {s t : State} (hs : s.stage = .blockStart) (h : startBlock s = some t) :
    movesLeft t < movesLeft s := by
  have hload : t.stage = .rounds ∧ t.stepIdx = 0 ∧ t.pass = s.pass ∧ t.block = s.block := by
    rcases (startBlock_eq_some h).2 with ⟨-, rfl⟩ | ⟨j, m, -, -, rfl⟩ <;>
      exact ⟨loadChain_stage _, loadChain_stepIdx _, loadChain_pass _, loadChain_block _⟩
  obtain ⟨hstage, hstep, hpass, hblock⟩ := hload
  simp [movesLeft, blockMovesLeft, hs, hstage, hstep, hpass, hblock]

theorem roundStep_lowers {s : State} (hs : s.stage = .rounds) (fn : Word → Word → Word → Word) :
    movesLeft (roundStep fn s.stepIdx s) < movesLeft s := by
  have hlt := s.stepIdx.isLt
  rcases stageAfterStep_rounds s.stepIdx with ⟨hstage, -, hlast⟩ | ⟨hstage, hstep⟩
  · simp [movesLeft, blockMovesLeft, hs, hstage]
    omega
  · simp [movesLeft, blockMovesLeft, hs, hstage, hstep]
    omega

/-- A pass that follows another has a lower number of passes after it. -/
theorem endPass_lowers {d : Quad} {s t : State} {j : Job} (h : endPass d s j = some t) (ht : t.stage = .blockStart) :
    t.pass.left < s.pass.left := by
  unfold endPass at h
  split at h
  · cases h
  · split at h <;> cases h
    cases ht
  · split at h <;> cases h
    cases ht
  · split at h <;> rename_i hp
    · cases h; rw [hp]; exact Nat.lt_succ_self 1
    · cases h; rw [hp]; exact Nat.lt_succ_self 0
    · split at h <;> cases h
      cases ht

theorem endBlock_lowers {s t : State} (hs : s.stage = .feedForward) (h : endBlock s = some t)
    (ht : t.stage = .blockStart) : movesLeft t < movesLeft s := by
  unfold endBlock at h
  split at h
  · cases h
    cases ht
  · obtain ⟨m, hstream, hm⟩ := Option.bind_eq_some_iff.1 h
    have hblocks := passStream_blocks hstream
    split at hm
    · rename_i hnext
      cases hm
      simp only [movesLeft, blockMovesLeft, hs]
      omega
    · have hpass := endPass_lowers hm ht
      simp only [movesLeft, blockMovesLeft, hs, ht]
      have : (passBlocks + 1) * (t.pass.left + 1) ≤ (passBlocks + 1) * s.pass.left := Nat.mul_le_mul_left _ hpass
      rw [Nat.mul_succ] at this
      omega
  · cases h

/-- A move of the engine that is not its last: it stays BUSY, with fewer moves left. -/
def MovesOn (s t : State) : Prop := t.busy = true ∧ t.inputs = s.inputs ∧ movesLeft t < movesLeft s

/-- A move of a step-level run that completes or moves on does so too where the rest is left to the whole effect. -/
theorem orWhole_completes_or_movesOn {s : State} {move : Option State}
    (h : ∀ t, move = some t → Completes (decodeCmd s.cmd) s t ∨ MovesOn s t) :
    ∃ t, orWhole move s = .next t ∧ (Completes (decodeCmd s.cmd) s t ∨ MovesOn s t) := by
  cases move with
  | some t => exact ⟨t, rfl, h t rfl⟩
  | none =>
    obtain ⟨t, ht, hc⟩ := wholeEffect_completes s
    exact ⟨t, ht, .inl hc⟩

theorem engineMove_completes_or_movesOn {s : State} (hb : s.busy = true) :
    ∃ t, engineMove s = .next t ∧ (Completes (decodeCmd s.cmd) s t ∨ MovesOn s t) := by
  cases hs : s.stage with
  | idle => exact absurd hs (ne_idle_of_busy hb)
  | accepted =>
    rw [engineMove_accepted hs]
    obtain ⟨t, ht, hc⟩ := wholeEffect_completes s
    exact ⟨t, ht, .inl hc⟩
  | blockStart =>
    rw [engineMove_blockStart hs]
    refine orWhole_completes_or_movesOn fun t ht => .inr ?_
    obtain ⟨hk, -⟩ := startBlock_keeps ht
    exact ⟨hk.busy, hk.inputs, startBlock_lowers hs ht⟩
  | rounds =>
    rw [engineMove_rounds hs, exec_decodeStep]
    have hk := roundStep_keeps (roundFn s.stepIdx) s.stepIdx hb
    exact ⟨_, rfl, .inr ⟨hk.busy, hk.inputs, roundStep_lowers hs _⟩⟩
  | feedForward =>
    rw [engineMove_feedForward hs]
    refine orWhole_completes_or_movesOn fun t ht => ?_
    rcases endBlock_cases ht with ⟨hk, hstage⟩ | hc
    · exact .inr ⟨hk.busy, hk.inputs, endBlock_lowers hs ht hstage⟩
    · exact .inl hc

/-- Settles O42: by the moves that are left. -/
theorem everyCommandCompletes : Obligations.EveryCommandCompletes := by
  intro s hb hi
  induction hn : movesLeft s using Nat.strong_induction_on generalizing s with
  | _ n ih =>
    obtain ⟨t, ht, hc | ⟨htb, hti, hlt⟩⟩ := engineMove_completes_or_movesOn hb
    · obtain ⟨e, u, -, -, rfl⟩ := hc
      exact ⟨1, _, run_one ((step_of_no_input hi).trans ht), rfl, rfl⟩
    · obtain ⟨k, u, hu, hbusy, hdone⟩ := ih _ (hn ▸ hlt) t htb (hti.trans hi) rfl
      exact ⟨k + 1, u, (run_next ((step_of_no_input hi).trans ht) k).trans hu, hbusy, hdone⟩

end Sys2Proof.Machine

/-! The two models of an execution (44_commands.md R176): what a step-level run keeps, one block of it, one pass of it,
and that it ends as the whole effect. -/

namespace Sys2Proof.Machine

/-! ### What a step-level run keeps -/

/-- A step-level run on known words changes none of what its command reads, and draws nothing. -/
structure RunKeeps (s t : State) : Prop extends MoveKeeps s t where
  draws : t.draws = s.draws

/-- Within a pass also what the pass reads is kept (43_hmac.md R166). -/
structure PassKeeps (s t : State) : Prop extends RunKeeps s t where
  kbuf : t.kbuf = s.kbuf
  innerHash : t.innerHash = s.innerHash
  pass : t.pass = s.pass

theorem MoveKeeps.trans {s t u : State} (h : MoveKeeps s t) (h' : MoveKeeps t u) : MoveKeeps s u where
  busy := h'.busy
  status := h'.status.trans h.status
  ie := h'.ie.trans h.ie
  msgAddr := h'.msgAddr.trans h.msgAddr
  msgLen := h'.msgLen.trans h.msgLen
  keyAddr := h'.keyAddr.trans h.keyAddr
  keyLen := h'.keyLen.trans h.keyLen
  digest := h'.digest.trans h.digest
  cmd := h'.cmd.trans h.cmd
  mem := h'.mem.trans h.mem
  absent := h'.absent.trans h.absent
  device := h'.device.trans h.device
  mmioBase := h'.mmioBase.trans h.mmioBase
  racing := h'.racing.trans h.racing
  inputs := h'.inputs.trans h.inputs
  rdata := h'.rdata.trans h.rdata

theorem RunKeeps.trans {s t u : State} (h : RunKeeps s t) (h' : RunKeeps t u) : RunKeeps s u :=
  ⟨h.toMoveKeeps.trans h'.toMoveKeeps, h'.draws.trans h.draws⟩

theorem PassKeeps.trans {s t u : State} (h : PassKeeps s t) (h' : PassKeeps t u) : PassKeeps s u :=
  ⟨h.toRunKeeps.trans h'.toRunKeeps, h'.kbuf.trans h.kbuf, h'.innerHash.trans h.innerHash, h'.pass.trans h.pass⟩

section
variable {s t : State} (h : RunKeeps s t)
include h

theorem RunKeeps.message : t.message = s.message := by
  rw [State.message, h.msgAddr, h.msgLen, State.message]
  exact memRead_congr h.mem h.racing h.device h.absent h.draws _ _

theorem RunKeeps.key : t.key = s.key := by
  rw [State.key, h.keyAddr, h.keyLen, State.key]
  exact memRead_congr h.mem h.racing h.device h.absent h.draws _ _

theorem RunKeeps.digestError : t.digestError = s.digestError := by
  rw [State.digestError, h.msgAddr, h.msgLen, State.digestError]

theorem RunKeeps.keyError : t.keyError = s.keyError := by
  rw [State.keyError, h.keyAddr, h.keyLen, State.keyError]

theorem RunKeeps.hmacError : t.hmacError = s.hmacError := by
  unfold State.hmacError
  rw [h.keyError, h.msgAddr, h.msgLen]

theorem RunKeeps.meetsDevice (a n : Nat) : t.meetsDevice a n = s.meetsDevice a n := by
  rw [State.meetsDevice, h.device, State.meetsDevice]

theorem RunKeeps.keyOnDevice : t.keyOnDevice = s.keyOnDevice := by
  rw [State.keyOnDevice, h.meetsDevice, h.keyAddr, h.keyLen, State.keyOnDevice]

theorem RunKeeps.wholeEffect : wholeEffect t = exec (decodeCmd s.cmd) t := by rw [Machine.wholeEffect, h.cmd]

end

theorem PassKeeps.passStream {s t : State} (h : PassKeeps s t) (j : Job) : passStream t j = passStream s j := by
  have hkbuf : t.kbufOperand = s.kbufOperand := by simp only [State.kbufOperand, h.kbuf, h.draws]
  cases j with
  | compress => rfl
  | digest => exact h.message
  | keyprep => exact h.key
  | hmac => simp only [Machine.passStream, h.pass, h.key, h.message, h.innerHash, hkbuf]

/-! ### How a command that used the datapath ends -/

/-- A completion with free engine registers and the data registers given. -/
def finished (e : ErrCode) (acc digest : Vector Reg 4) (xbuf kbuf : Vector Reg 16) (s : State) : State :=
  complete e (freeEngine { s with acc := acc, digest := digest, xbuf := xbuf, kbuf := kbuf })

/-- Such an end forgets all that a step-level run changes. -/
theorem finished_congr {s t : State} (h : RunKeeps s t) (e : ErrCode) (acc digest : Vector Reg 4)
    (xbuf kbuf : Vector Reg 16) : finished e acc digest xbuf kbuf t = finished e acc digest xbuf kbuf s := by
  simp only [finished, complete, freeEngine, h.status, h.ie, h.msgAddr, h.msgLen, h.keyAddr, h.keyLen, h.cmd, h.mem,
    h.absent, h.device, h.mmioBase, h.inputs, h.rdata, h.draws]

theorem finishDigest_eq (r : Vector Reg 4) (s : State) : finishDigest r s = finished .none r r anyBlock s.kbuf s := rfl

theorem finishKeyprep_true (kb : Vector Reg 16) (s : State) :
    finishKeyprep true kb s = finished .none anyQuad s.digest anyBlock kb s := rfl

/-- The result registers of HMAC for key bytes `k` and message bytes `m` (44_commands.md R184). -/
def hmacResult (s : State) (k m : List Byte) : Vector Reg 4 :=
  resultRegs (s.keyOnDevice || s.meetsDevice s.msgAddr.toNat s.msgLen.toNat) (hmacWords k m)

theorem exec_hmac_finished {s : State} {k m : List Byte} (he : s.hmacError = .none) (hk : s.key = some k)
    (hm : s.message = some m) :
    exec .hmac s =
      .next (finished .none (hmacResult s k m) (hmacResult s k m) anyBlock (keyRegs s.keyOnDevice k) s) :=
  exec_hmac_ok he hk hm

theorem raiseBusErr_true (s : State) : raiseBusErr true s = finished .busErr anyQuad s.digest anyBlock anyBlock s := rfl

theorem raiseBusErr_false (s : State) : raiseBusErr false s = finished .busErr anyQuad s.digest anyBlock s.kbuf s := rfl

section
variable {s t : State} (h : RunKeeps s t)
include h

theorem exec_digest_congr (he : s.digestError = .none) (hkbuf : t.kbuf = s.kbuf) : exec .digest t = exec .digest s := by
  cases hm : s.message with
  | some m =>
    rw [exec_digest_ok he hm, exec_digest_ok (h.digestError.trans he) (h.message.trans hm), h.meetsDevice, h.msgAddr,
      h.msgLen, finishDigest_eq, finished_congr h, hkbuf, finishDigest_eq]
  | none =>
    rw [exec_digest_bus he hm, exec_digest_bus (h.digestError.trans he) (h.message.trans hm), raiseBusErr_false,
      finished_congr h, hkbuf, h.digest, raiseBusErr_false]

theorem exec_hmac_congr (he : s.hmacError = .none) : exec .hmac t = exec .hmac s := by
  rcases key_message_reads s with hn | ⟨k, m, hk, hm⟩
  · rw [exec_hmac_bus he hn, exec_hmac_bus (h.hmacError.trans he) (by rwa [h.key, h.message]), raiseBusErr_true,
      finished_congr h, h.digest, raiseBusErr_true]
  · rw [exec_hmac_finished he hk hm,
      exec_hmac_finished (h.hmacError.trans he) (h.key.trans hk) (h.message.trans hm), finished_congr h, hmacResult,
      h.keyOnDevice, h.meetsDevice, h.msgAddr, h.msgLen, hmacResult]

theorem exec_keyprep_congr (he : s.keyError = .none) (hlong : 64 < s.keyLen.toNat) :
    exec .keyprep t = exec .keyprep s := by
  cases hk : s.key with
  | some k =>
    have hlen : k.length = s.keyLen.toNat := memRead_length hk
    rw [exec_keyprep_ok he hk, exec_keyprep_ok (h.keyError.trans he) (h.key.trans hk), h.keyOnDevice,
      decide_eq_true (by omega), finishKeyprep_true, finished_congr h, h.digest, finishKeyprep_true]
  | none =>
    rw [exec_keyprep_bus he hk, exec_keyprep_bus (h.keyError.trans he) (h.key.trans hk), raiseBusErr_true,
      finished_congr h, h.digest, raiseBusErr_true]

end

/-! ### One block -/

/-- `t` is `s` with block `x` loaded on the chaining value `q` and the first `n` round steps done. -/
structure AfterRounds (s t : State) (q : Quad) (x : Block) (n : Nat) : Prop extends PassKeeps s t where
  block : t.block = s.block
  acc : t.acc = knownQuad q
  xbuf : t.xbuf = knownBlock x
  chain : t.chain = q
  work : t.work = workAfter q x n
  stage : t.stage = if n = 64 then .feedForward else .rounds
  step : n < 64 → t.stepIdx.toNat = n

/-- The next round step. -/
theorem AfterRounds.next {s t : State} {q : Quad} {x : Block} {n : Nat} (h : AfterRounds s t q x n) (hn : n < 64) :
    ∃ u : State, engineMove t = .next u ∧ AfterRounds s u q x (n + 1) := by
  have hs : t.stage = .rounds := by rw [h.stage, if_neg (by omega)]
  have hi : t.stepIdx = BitVec.ofNat 6 n := by rw [← h.step hn, BitVec.ofNat_toNat, BitVec.setWidth_eq]
  have hwork : stepOf t.stepIdx x t.work = workAfter q x (n + 1) := by rw [workAfter_succ, hi, h.work]
  refine ⟨_, (engineMove_rounds hs).trans (exec_decodeStep ..), ?_⟩
  have hk := h.toMoveKeeps.trans (roundStep_keeps (roundFn t.stepIdx) t.stepIdx h.busy)
  have hplace := stageAfterStep_rounds t.stepIdx
  rw [h.step hn] at hplace
  rw [roundStep_of_known h.xbuf, hwork, hs] at hk ⊢
  refine ⟨⟨⟨hk, h.draws⟩, h.kbuf, h.innerHash, h.pass⟩, h.block, h.acc, h.xbuf, h.chain, rfl, ?_, ?_⟩
  · show stageAfterStep t.stepIdx .rounds = _
    rcases hplace with ⟨hstage, -, hlast⟩ | ⟨hstage, hstep⟩
    · rw [hstage, if_pos hlast]
    · have := (nextStep t.stepIdx).isLt
      rw [hstage, if_neg (by omega)]
  · intro hlt
    show (nextStep t.stepIdx).toNat = _
    rcases hplace with ⟨-, -, hlast⟩ | ⟨-, hstep⟩
    · omega
    · exact hstep

/-- All remaining round steps of a block. -/
theorem AfterRounds.run {s t : State} {q : Quad} {x : Block} (hi : s.inputs = []) (k : Nat) {n : Nat}
    (h : AfterRounds s t q x n) (hn : n + k = 64) :
    ∃ u : State, Host.Core.run core k t = .next u ∧ AfterRounds s u q x 64 := by
  induction k generalizing t n with
  | zero => exact ⟨t, rfl, by rwa [← hn]⟩
  | succ k ih =>
    obtain ⟨u, hu, hau⟩ := h.next (by omega)
    obtain ⟨v, hv, hav⟩ := ih hau (by omega)
    exact ⟨v, (run_next ((step_of_no_input (h.inputs.trans hi)).trans hu) k).trans hv, hav⟩

/-- Loading a block on a known chaining value. -/
theorem loadChain_afterRounds {s : State} {q : Quad} (hacc : s.acc = knownQuad q) (x : Block) {r : Vector Reg 16}
    (hr : r = knownBlock x) : AfterRounds s (loadChain { s with xbuf := r }) q x 0 := by
  have hq : State.accOperand { s with xbuf := r } = q := accOperand_of_known (s := { s with xbuf := r }) hacc
  refine ⟨⟨⟨loadChain_keeps r s, rfl⟩, rfl, rfl, rfl⟩, rfl, hacc, hr, ?_, ?_, rfl, fun _ => rfl⟩
  · rw [loadChain_chain, hq]
  · rw [loadChain_work, hq, workAfter_zero]

/-- A block from its start to the feed-forward: 65 moves (41_compression_core.md R121, R126). -/
theorem run_block {s t : State} {q : Quad} {x : Block} (hi : s.inputs = []) (hs : s.stage = .blockStart)
    (ht : startBlock s = some t) (h : AfterRounds s t q x 0) :
    ∃ u : State, Host.Core.run core 65 s = .next u ∧ AfterRounds s u q x 64 := by
  have hmove : engineMove s = .next t := by rw [engineMove_blockStart hs, ht]; rfl
  obtain ⟨u, hu, hau⟩ := h.run hi 64 rfl
  exact ⟨u, (run_next ((step_of_no_input hi).trans hmove) 64).trans hu, hau⟩

/-! ### One pass -/

theorem run_one_eq (s : State) : Host.Core.run core 1 s = step s := by
  cases hs : step s with
  | next t => exact run_one hs
  | fault r => cases r
  | refused r =>
    simp only [Host.Core.run, show core.step s = .refused r from hs]
    rfl

theorem startBlock_compress {s : State} (hacc : s.accKnown = true) (hj : s.job = some .compress) :
    startBlock s = some (loadChain s) := by
  unfold startBlock
  rw [if_pos hacc, hj]

theorem startBlock_pass {s : State} {j : Job} (hacc : s.accKnown = true) (hj : s.job = some j) (hne : j ≠ .compress) :
    startBlock s =
      (passStream s j).map fun m => loadChain { s with xbuf := knownBlock (blockAt (pad m) s.block) } := by
  unfold startBlock
  rw [if_pos hacc, hj]
  cases j with
  | compress => exact absurd rfl hne
  | digest | keyprep | hmac => rfl

/-- A block of a digest pass from its start to its end: 66 moves (41_compression_core.md R121 to R129). -/
theorem run_passBlock {s : State} {j : Job} {m : List Byte} {q : Quad} (hi : s.inputs = []) (hs : s.stage = .blockStart)
    (hj : s.job = some j) (hne : j ≠ .compress) (hm : passStream s j = some m) (hacc : s.acc = knownQuad q) :
    ∃ t : State, AfterRounds s t q (blockAt (pad m) s.block) 64 ∧
      Host.Core.run core 66 s = orWhole (endBlock t) t := by
  have hstart : startBlock s = some (loadChain { s with xbuf := knownBlock (blockAt (pad m) s.block) }) := by
    rw [startBlock_pass (accKnown_of_known hacc) hj hne, hm, Option.map_some]
  obtain ⟨t, ht, hat⟩ := run_block hi hs hstart (loadChain_afterRounds hacc _ rfl)
  refine ⟨t, hat, ?_⟩
  rw [run_add ht 1, run_one_eq, step_of_no_input (hat.inputs.trans hi), engineMove_feedForward hat.stage]

/-- What the end of a block of a digest pass does (41_compression_core.md R129, 43_hmac.md R166). -/
theorem endBlock_of_pass {s : State} {j : Job} {m : List Byte} (hj : s.job = some j) (hne : j ≠ .compress)
    (hm : passStream s j = some m) :
    endBlock s =
      if s.block + 1 < blockCount m.length then
        some { s with acc := knownQuad (feedForward s.chain s.work), block := s.block + 1, stage := .blockStart }
      else endPass (feedForward s.chain s.work) s j := by
  unfold endBlock
  rw [hj]
  cases j with
  | compress => exact absurd rfl hne
  | digest | keyprep | hmac => simp only [hm, Option.bind_some]

/-- The start of the next block of a pass. -/
theorem nextBlock_keeps (d : Quad) (s : State) :
    PassKeeps s { s with acc := knownQuad d, block := s.block + 1, stage := .blockStart } :=
  ⟨⟨by constructor <;> rfl, rfl⟩, rfl, rfl, rfl⟩

/-- A digest pass from one of its blocks to its end: 66 moves a block. -/
theorem run_pass_from {s : State} {j : Job} {m : List Byte} (hi : s.inputs = []) (hs : s.stage = .blockStart)
    (hj : s.job = some j) (hne : j ≠ .compress) (hm : passStream s j = some m)
    (hacc : s.acc = knownQuad (chainAfter (pad m) s.block)) (r : Nat) (hr : s.block + (r + 1) = blockCount m.length) :
    ∃ t : State, PassKeeps s t ∧ Host.Core.run core (66 * (r + 1)) s = orWhole (endPass (digestWords m) t j) t := by
  induction r generalizing s with
  | zero =>
    obtain ⟨t, hat, ht⟩ := run_passBlock hi hs hj hne hm hacc
    refine ⟨t, hat.toPassKeeps, ?_⟩
    have hd : feedForward t.chain t.work = digestWords m := by
      rw [hat.chain, hat.work, feedForward_workAfter, ← chainAfter_succ, digestWords_eq, ← hr]
    have hend := endBlock_of_pass (hat.job.trans hj) hne ((hat.passStream j).trans hm)
    rw [if_neg (by rw [hat.block]; omega), hd] at hend
    rw [← hend]
    exact ht
  | succ r ih =>
    obtain ⟨t, hat, ht⟩ := run_passBlock hi hs hj hne hm hacc
    have hd : feedForward t.chain t.work = chainAfter (pad m) (t.block + 1) := by
      rw [hat.chain, hat.work, feedForward_workAfter, hat.block, chainAfter_succ]
    have hend := endBlock_of_pass (hat.job.trans hj) hne ((hat.passStream j).trans hm)
    rw [if_pos (by rw [hat.block]; omega), hd] at hend
    rw [hend] at ht
    have hk := nextBlock_keeps (chainAfter (pad m) (t.block + 1)) t
    have hsu := hat.toPassKeeps.trans hk
    obtain ⟨v, hv, hrun⟩ := ih (hsu.inputs.trans hi) rfl (hsu.job.trans hj) ((hsu.passStream j).trans hm) rfl
      (by show t.block + 1 + (r + 1) = _; rw [hat.block]; omega)
    refine ⟨v, hsu.trans hv, ?_⟩
    rw [show 66 * (r + 1 + 1) = 66 + 66 * (r + 1) by omega, run_add ht]
    exact hrun

/-- `t` is at the start of pass `p` of the run that `s` accepted. -/
structure AtPass (s t : State) (p : Pass) : Prop extends RunKeeps s t where
  stage : t.stage = .blockStart
  pass : t.pass = p
  block : t.block = 0
  acc : t.acc = knownQuad iv

/-- A pass starts from any state of the run, whatever was written to KBUF and to the inner digest before. -/
theorem startPass_keeps (p : Pass) (kb : Vector Reg 16) (d : Quad) (s : State) :
    RunKeeps s (startPass p { s with kbuf := kb, innerHash := d }) :=
  ⟨by constructor <;> rfl, rfl⟩

theorem startPass_atPass (p : Pass) (kb : Vector Reg 16) (d : Quad) (s : State) :
    AtPass s (startPass p { s with kbuf := kb, innerHash := d }) p :=
  ⟨startPass_keeps p kb d s, rfl, rfl, rfl, rfl⟩

theorem AtPass.of_keeps {s t u : State} {p : Pass} (h : RunKeeps s t) (h' : AtPass t u p) : AtPass s u p :=
  ⟨h.trans h'.toRunKeeps, h'.stage, h'.pass, h'.block, h'.acc⟩

section
variable {s t : State} {p : Pass} {j : Job} (h : AtPass s t p) (hi : s.inputs = []) (hj : s.job = some j)
  (hne : j ≠ .compress)
include h hi hj hne

/-- A whole digest pass: 66 moves a block. -/
theorem AtPass.run {m : List Byte} (hm : passStream t j = some m) :
    ∃ u : State, PassKeeps t u ∧
      Host.Core.run core (66 * blockCount m.length) t = orWhole (endPass (digestWords m) u j) u := by
  have hr : t.block + (blockCount m.length - 1 + 1) = blockCount m.length := by
    rw [h.block, blockCount]
    omega
  have hacc : t.acc = knownQuad (chainAfter (pad m) t.block) := by rw [h.acc, h.block, chainAfter_zero]
  obtain ⟨u, hu, hrun⟩ := run_pass_from (h.inputs.trans hi) h.stage (h.job.trans hj) hne hm hacc _ hr
  rw [h.block, Nat.zero_add] at hr
  rw [hr] at hrun
  exact ⟨u, hu, hrun⟩

/-- A pass whose bytes are not all read leaves the command to its whole effect (60_exceptions.md R214). -/
theorem AtPass.run_bus (hm : passStream t j = none) : Host.Core.run core 1 t = exec (decodeCmd s.cmd) t := by
  have hstart : startBlock t = none := by
    rw [startBlock_pass (accKnown_of_known h.acc) (h.job.trans hj) hne, hm, Option.map_none]
  rw [run_one_eq, step_of_no_input (h.inputs.trans hi), engineMove_blockStart h.stage, hstart]
  exact h.wholeEffect

end

/-! ### The four commands that use the datapath -/

/-- The command of a datapath job (44_commands.md). -/
def Job.instr : Job → Instr
  | .compress => .compress
  | .digest => .digest
  | .hmac => .hmac
  | .keyprep => .keyprep

theorem decodeCmd_of_job {s : State} {j : Job} (h : s.job = some j) : decodeCmd s.cmd = j.instr := by
  unfold State.job at h
  cases hi : decodeCmd s.cmd <;> rw [hi] at h <;> cases h <;> rfl

theorem meetsDevice_of_regular {s : State} (h : ¬irregularMessage s = true) :
    s.meetsDevice s.msgAddr.toNat s.msgLen.toNat = false :=
  (Bool.or_eq_false_iff.1 (Bool.eq_false_iff.2 h)).2

theorem keyOnDevice_of_regular {s : State} (h : ¬irregularKey s = true) : s.keyOnDevice = false :=
  (Bool.or_eq_false_iff.1 (Bool.eq_false_iff.2 h)).2

/-- KBUF holds the bytes of K0 that were written to it as words (43_hmac.md R162). -/
theorem kbufBytes_of_normKey {u : State} {k : List Byte} (hkbuf : u.kbuf = knownBlock (toBlock (normKey k))) :
    blockBytes u.kbufOperand = normKey k := by
  rw [kbufOperand_of_known hkbuf, blockBytes_toBlock _ (normKey_length k)]

/-- The run from `s` answers `o` within `n` moves. -/
def EndsWithin (n : Nat) (s : State) (o : Outcome) : Prop := ∃ a, a ≤ n ∧ Host.Core.run core a s = o

theorem EndsWithin.after {s t : State} {a n : Nat} {o : Outcome} (h : Host.Core.run core a s = .next t)
    (ht : EndsWithin n t o) : EndsWithin (a + n) s o := by
  obtain ⟨b, hb, hrun⟩ := ht
  exact ⟨a + b, Nat.add_le_add_left hb a, (run_add h b).trans hrun⟩

theorem EndsWithin.mono {s : State} {n n' : Nat} {o : Outcome} (h : EndsWithin n s o) (hn : n ≤ n') :
    EndsWithin n' s o := by
  obtain ⟨a, ha, hrun⟩ := h
  exact ⟨a, ha.trans hn, hrun⟩

section
variable {s t : State} (hi : s.inputs = [])
include hi

/-- DIGEST from the start of its pass. -/
theorem digest_endsWithin (hj : s.job = some .digest) (he : s.digestError = .none) (h : AtPass s t .key)
    (hkbuf : t.kbuf = s.kbuf) : EndsWithin (66 * blockCount s.msgLen.toNat) t (exec .digest s) := by
  have hd := decodeCmd_of_job hj
  cases hm : s.message with
  | none =>
    refine ⟨1, by rw [blockCount]; omega, ?_⟩
    rw [h.run_bus hi hj nofun (h.message.trans hm), hd]
    exact exec_digest_congr h.toRunKeeps he hkbuf
  | some m =>
    have hlen : m.length = s.msgLen.toNat := memRead_length hm
    obtain ⟨u, hu, hrun⟩ := h.run hi hj nofun (h.message.trans hm)
    have hk := h.toRunKeeps.trans hu.toRunKeeps
    have hkbuf' := hu.kbuf.trans hkbuf
    refine ⟨_, le_refl _, ?_⟩
    rw [← hlen, hrun, endPass]
    split
    · rw [orWhole, hk.wholeEffect, hd]
      exact exec_digest_congr hk he hkbuf'
    · rename_i hreg
      have hdev := meetsDevice_of_regular hreg
      rw [hk.msgAddr, hk.msgLen, hk.meetsDevice] at hdev
      rw [orWhole, exec_digest_ok he hm, hdev, resultRegs_of_plain, finishDigest_eq, finishDigest_eq,
        finished_congr hk, hkbuf']

/-- KEYPREP of a long key from the start of its pass. -/
theorem keyprep_endsWithin (hj : s.job = some .keyprep) (he : s.keyError = .none) (hlong : 64 < s.keyLen.toNat)
    (h : AtPass s t .key) : EndsWithin (66 * blockCount s.keyLen.toNat) t (exec .keyprep s) := by
  have hd := decodeCmd_of_job hj
  cases hm : s.key with
  | none =>
    refine ⟨1, by rw [blockCount]; omega, ?_⟩
    rw [h.run_bus hi hj nofun (h.key.trans hm), hd]
    exact exec_keyprep_congr h.toRunKeeps he hlong
  | some k =>
    have hlen : k.length = s.keyLen.toNat := memRead_length hm
    obtain ⟨u, hu, hrun⟩ := h.run hi hj nofun (h.key.trans hm)
    have hk := h.toRunKeeps.trans hu.toRunKeeps
    refine ⟨_, le_refl _, ?_⟩
    rw [← hlen, hrun, endPass]
    split
    · rw [orWhole, hk.wholeEffect, hd]
      exact exec_keyprep_congr hk he hlong
    · rename_i hreg
      have hdev := keyOnDevice_of_regular hreg
      rw [hk.keyOnDevice] at hdev
      have hnorm : normKey k = extendKey (quadBytes (digestWords k)) := by rw [normKey, if_pos (by omega), digestBytes]
      rw [orWhole, exec_keyprep_ok he hm, decide_eq_true (by omega), hdev, keyRegs_of_plain, hnorm,
        finishKeyprep_true, finishKeyprep_true, finished_congr hk, hk.digest]

variable (hj : s.job = some .hmac) (he : s.hmacError = .none) {k m : List Byte} (hkey : s.key = some k)
include hj he hkey

/-- HMAC from the start of its outer pass. -/
theorem hmac_outer_endsWithin (hmsg : s.message = some m) (h : AtPass s t .outer)
    (hkbuf : t.kbuf = knownBlock (toBlock (normKey k)))
    (hinner : t.innerHash = digestWords (ipadBlock (normKey k) ++ m)) : EndsWithin (66 * 2) t (exec .hmac s) := by
  have hstream : passStream t .hmac =
      some (opadBlock (normKey k) ++ digestBytes (ipadBlock (normKey k) ++ m)) := by
    simp only [passStream, h.pass, hinner, digestBytes, kbufBytes_of_normKey hkbuf]
  obtain ⟨u, hu, hrun⟩ := h.run hi hj nofun hstream
  have hk := h.toRunKeeps.trans hu.toRunKeeps
  have hblocks : blockCount (opadBlock (normKey k) ++ digestBytes (ipadBlock (normKey k) ++ m)).length = 2 := by
    rw [List.length_append, opadBlock_length, normKey_length, digestBytes, quadBytes_length]
    rfl
  rw [hblocks] at hrun
  refine ⟨_, le_refl _, hrun.trans ?_⟩
  rw [endPass, hu.pass.trans h.pass]
  dsimp only
  split
  · rw [orWhole, hk.wholeEffect, decodeCmd_of_job hj]
    exact exec_hmac_congr hk he
  · rename_i hreg
    obtain ⟨hregk, hregm⟩ := not_or.1 (mt Bool.or_eq_true_iff.2 hreg)
    have hdevk := keyOnDevice_of_regular hregk
    have hdevm := meetsDevice_of_regular hregm
    rw [hk.keyOnDevice] at hdevk
    rw [hk.msgAddr, hk.msgLen, hk.meetsDevice] at hdevm
    rw [orWhole, exec_hmac_finished he hkey hmsg, hmacResult, hdevk, hdevm, Bool.or_self, resultRegs_of_plain,
      keyRegs_of_plain, finishDigest_eq, finished_congr hk, hu.kbuf, hkbuf, hmacWords]

/-- HMAC from the start of its inner pass. -/
theorem hmac_inner_endsWithin (h : AtPass s t .inner) (hkbuf : t.kbuf = knownBlock (toBlock (normKey k))) :
    EndsWithin (66 * (blockCount (64 + s.msgLen.toNat) + 2)) t (exec .hmac s) := by
  have hbytes := kbufBytes_of_normKey hkbuf
  cases hmsg : s.message with
  | none =>
    have hstream : passStream t .hmac = none := by simp only [passStream, h.pass, h.message, hmsg, Option.map_none]
    refine ⟨1, by omega, ?_⟩
    rw [h.run_bus hi hj nofun hstream, decodeCmd_of_job hj]
    exact exec_hmac_congr h.toRunKeeps he
  | some m =>
    have hlen : m.length = s.msgLen.toNat := memRead_length hmsg
    have hstream : passStream t .hmac = some (ipadBlock (normKey k) ++ m) := by
      simp only [passStream, h.pass, h.message, hmsg, Option.map_some, hbytes]
    obtain ⟨u, hu, hrun⟩ := h.run hi hj nofun hstream
    rw [List.length_append, ipadBlock_length, normKey_length, hlen, endPass, hu.pass.trans h.pass] at hrun
    have hat := AtPass.of_keeps (h.toRunKeeps.trans hu.toRunKeeps)
      (startPass_atPass .outer u.kbuf (digestWords (ipadBlock (normKey k) ++ m)) u)
    rw [Nat.mul_add]
    exact .after hrun (hmac_outer_endsWithin hi hj he hkey hmsg hat (hu.kbuf.trans hkbuf) rfl)

/-- HMAC of a long key from the start of its key pass. -/
theorem hmac_key_endsWithin (hlong : 64 < s.keyLen.toNat) (h : AtPass s t .key) :
    EndsWithin (66 * (blockCount s.keyLen.toNat + (blockCount (64 + s.msgLen.toNat) + 2))) t (exec .hmac s) := by
  have hlen : k.length = s.keyLen.toNat := memRead_length hkey
  have hstream : passStream t .hmac = some k := by simp only [passStream, h.pass, h.key, hkey]
  obtain ⟨u, hu, hrun⟩ := h.run hi hj nofun hstream
  have hnorm : normKey k = extendKey (quadBytes (digestWords k)) := by rw [normKey, if_pos (by omega), digestBytes]
  rw [hlen, endPass, hu.pass.trans h.pass, ← hnorm] at hrun
  have hat := AtPass.of_keeps (h.toRunKeeps.trans hu.toRunKeeps)
    (startPass_atPass .inner (knownBlock (toBlock (normKey k))) u.innerHash u)
  rw [Nat.mul_add]
  exact .after hrun (hmac_inner_endsWithin hi hj he hkey hat rfl)

end

/-- HMAC of a long key whose bytes are not all read. -/
theorem hmac_key_bus_endsWithin {s t : State} (hi : s.inputs = []) (hj : s.job = some .hmac) (he : s.hmacError = .none)
    (hkey : s.key = none) (h : AtPass s t .key) : EndsWithin 1 t (exec .hmac s) := by
  have hstream : passStream t .hmac = none := by simp only [passStream, h.pass, h.key, hkey]
  refine ⟨1, le_refl _, ?_⟩
  rw [h.run_bus hi hj nofun hstream, decodeCmd_of_job hj]
  exact exec_hmac_congr h.toRunKeeps he

theorem endBlock_compress {s : State} (hj : s.job = some .compress) :
    endBlock s =
      some (finished .none (knownQuad (feedForward s.chain s.work)) s.digest s.xbuf s.kbuf s) := by
  unfold endBlock
  rw [hj]
  rfl

theorem exec_compress_finished (s : State) :
    exec .compress s =
      .next (finished .none (knownQuad (compress s.accOperand s.xbufOperand)) s.digest s.xbuf s.kbuf s) :=
  exec_compress s

/-- COMPRESS of known words from its block's start: one block, with the operands where they are (44_commands.md
R182). -/
theorem compress_endsWithin {s t : State} {q : Quad} {x : Block} (hi : s.inputs = []) (hj : s.job = some .compress)
    (hk : RunKeeps s t) (hs : t.stage = .blockStart) (hkbuf : t.kbuf = s.kbuf) (hacc : s.acc = knownQuad q)
    (hacc' : t.acc = s.acc) (hxbuf : s.xbuf = knownBlock x) (hxbuf' : t.xbuf = s.xbuf) :
    EndsWithin 66 t (exec .compress s) := by
  have hstart := startBlock_compress (accKnown_of_known (hacc'.trans hacc)) (hk.job.trans hj)
  have hload := loadChain_afterRounds (hacc'.trans hacc) x (hxbuf'.trans hxbuf)
  obtain ⟨u, hu, hau⟩ := run_block (hk.inputs.trans hi) hs hstart hload
  have hku : RunKeeps s u := hk.trans hau.toRunKeeps
  have hend := endBlock_compress (hku.job.trans hj)
  rw [hau.chain, hau.work, feedForward_workAfter] at hend
  refine ⟨66, le_refl _, ?_⟩
  rw [run_add hu 1, run_one_eq, step_of_no_input (hku.inputs.trans hi), engineMove_feedForward hau.stage, hend, orWhole,
    finished_congr hku, hku.digest, hau.kbuf, hkbuf, hau.xbuf, exec_compress_finished, accOperand_of_known hacc,
    xbufOperand_of_known hxbuf, hxbuf]

/-! ### The whole run -/

/-- A step-level run ends as the whole effect, within 66 moves a block. -/
theorem beginStepLevel_endsWithin {s t : State} (hi : s.inputs = []) (h : beginStepLevel s = some t) :
    EndsWithin (66 * blocksToRun s) t (exec (decodeCmd s.cmd) s) := by
  have start : ∀ p, AtPass s (startPass p s) p := fun p => startPass_atPass p s.kbuf s.innerHash s
  unfold beginStepLevel at h
  split at h <;> rename_i hj
  · split at h <;> cases h
    rename_i hknown
    obtain ⟨hacc, hxbuf⟩ := Bool.and_eq_true_iff.1 hknown
    rw [decodeCmd_of_job hj]
    have hk : RunKeeps s { s with stage := .blockStart } := ⟨by constructor <;> rfl, rfl⟩
    refine (compress_endsWithin hi hj hk rfl rfl (acc_of_accKnown hacc) rfl (xbuf_of_xbufKnown hxbuf) rfl).mono ?_
    simp only [blocksToRun, hj]
    omega
  · split at h <;> cases h
    rename_i he
    rw [decodeCmd_of_job hj]
    exact (digest_endsWithin hi hj he (start .key) rfl).mono (by simp only [blocksToRun, hj]; omega)
  · split at h <;> cases h
    rename_i hc
    obtain ⟨he, hlong⟩ := hc
    rw [decodeCmd_of_job hj]
    refine (keyprep_endsWithin hi hj he hlong (start .key)).mono ?_
    simp only [blocksToRun, hj, if_neg (show ¬s.keyLen.toNat ≤ 64 by omega)]
    omega
  · rw [decodeCmd_of_job hj]
    split at h
    · rename_i he
      split at h
      · rename_i hlong
        cases h
        cases hkey : s.key with
        | none =>
          refine (hmac_key_bus_endsWithin hi hj he hkey (start .key)).mono ?_
          simp only [blocksToRun, hj]
          omega
        | some k =>
          refine (hmac_key_endsWithin hi hj he hkey hlong (start .key)).mono ?_
          simp only [blocksToRun, hj, if_neg (show ¬s.keyLen.toNat ≤ 64 by omega)]
          omega
      · rename_i hshort
        obtain ⟨k, hkey, rfl⟩ := Option.map_eq_some_iff.1 h
        have hlen : k.length = s.keyLen.toNat := memRead_length hkey
        have hnorm : normKey k = extendKey k := by rw [normKey, if_neg (by omega)]
        rw [← hnorm]
        have hat := startPass_atPass .inner (knownBlock (toBlock (normKey k))) s.innerHash s
        refine (hmac_inner_endsWithin hi hj he hkey hat rfl).mono ?_
        simp only [blocksToRun, hj]
        omega
    · cases h
  · cases h

theorem run_idle {s : State} (hs : s.stage = .idle) (hi : s.inputs = []) (n : Nat) :
    Host.Core.run core n s = .next s := by
  induction n with
  | zero => rfl
  | succ n ih => exact (run_next ((step_of_no_input hi).trans (engineMove_idle hs)) n).trans ih

/-- A command's effect is an idle engine, which keeps its state. -/
theorem run_of_endsWithin {s t : State} {i : Instr} (hr : isRound i = false) (hi : s.inputs = []) {n : Nat}
    (h : EndsWithin n t (exec i s)) : Host.Core.run core n t = exec i s := by
  obtain ⟨a, ha, hrun⟩ := h
  obtain ⟨e, u, hc, hx⟩ := exec_command hr s
  rw [hx] at hrun ⊢
  obtain ⟨b, rfl⟩ := Nat.exists_eq_add_of_le ha
  exact (run_add hrun b).trans (run_idle (s := complete e u) rfl (hc.inputs.trans hi) b)

/-- Settles O41: the first move starts the run or takes the whole effect; the rest is `beginStepLevel_endsWithin`. -/
theorem stepLevelRunEqualsTheWholeEffect : Obligations.StepLevelRunEqualsTheWholeEffect := by
  intro s hs hi
  have hstep : step { s with inputs := [.micro] } = orWhole (beginStepLevel s) s := by
    rw [← microMove_accepted hs]
    show microMove { s with inputs := [] } = microMove s
    rw [← hi]
  have hr := isRound_decodeCmd s.cmd
  cases hb : beginStepLevel s with
  | none =>
    have hone : Host.Core.run core 1 { s with inputs := [.micro] } = exec (decodeCmd s.cmd) s := by
      rw [run_one_eq, hstep, hb]
      rfl
    exact run_of_endsWithin hr hi ⟨1, by omega, hone⟩
  | some t =>
    rw [hb] at hstep
    exact run_of_endsWithin hr hi (.after (run_one hstep) (beginStepLevel_endsWithin hi hb))

end Sys2Proof.Machine
